-- ==== Sys2Proof/Word.lean ====
section
/-! DEFINITION. The word types of the engine: bytes, 16-bit words and the fields of an instruction word
(00_scope R7, R11, R12; 30_encoding R88). -/

namespace Sys2Proof

/-- A general register, a memory byte, a timer value (R23, R57, R35). -/
abbrev Byte := BitVec 8

/-- `pc`, `I`, a stack entry, an instruction word (R26, R31, R33, R86). -/
abbrev Word := BitVec 16

/-- The 12-bit address field `nnn` (R88). -/
abbrev Addr := BitVec 12

/-- A 4-bit field: a register number `x` or `y`, or the sprite height `n` (R88). -/
abbrev Nibble := BitVec 4

/-- A register number, `0` to `15` (R90). -/
abbrev Reg := Nibble

/-- A key number, `0` to `15` (R166). -/
abbrev Key := Nibble

/-- A set of keys: `keys[k]` says that key `k` is a member (R48). -/
abbrev KeySet := Vector Bool 16

end Sys2Proof
end

