-- ==== Sys2Proof/Config.lean ====
section
/-! DEFINITION. What an implementation fixes: the fixed sizes (00_scope R7), the parameters the source leaves open (R8),
the quirk parameters (R10), each with its default, and the free value behind the inputs (R16). -/

namespace Sys2Proof

/-! ### Fixed sizes (R7, R60) -/

/-- MEM_SIZE (R7, R57). -/
def memSize : Nat := 4096

/-- FONT_BASE (R7, R60). -/
def fontBase : Nat := 0x050

/-- FONT_LEN (R7, R61): 16 glyphs of 5 bytes. -/
def fontLen : Nat := 80

/-- PROG_BASE (R7, R63): where a ROM is loaded and where execution starts (R190). -/
def progBase : Nat := 0x200

/-- PROG_MAX_LEN (R7, R74). -/
def progMaxLen : Nat := 3584

/-! ### Quirk parameters (R10) -/

/-- SHIFT_FLAG_DEST: which register takes the bit a shift moves out (R138, R140). -/
inductive ShiftFlagDest where
  | vy
  | vf
deriving DecidableEq, Repr

/-- INDEX_FLAG_DEST: which register takes AddToIndex's overflow flag (R144). -/
inductive IndexFlagDest where
  | vx
  | vf
deriving DecidableEq, Repr

/-- INDEX_OVERFLOW_POLICY: what `I + V[x] > 0xFFFF` does (R144). -/
inductive IndexOverflowPolicy where
  | fault
  | wrap
deriving DecidableEq, Repr

/-- FONT_WRITE_POLICY: what a write to the font region does (R66). -/
inductive FontWritePolicy where
  | fault
  | write
deriving DecidableEq, Repr

/-- KEY_RANGE_POLICY: what a key index above 15 does (R169). -/
inductive KeyRangePolicy where
  | fault
  | notPressed
deriving DecidableEq, Repr

/-- The static parameters of the engine (R8, R10): fixed before reset, changed by no instruction (R39). They stand in a field
of `State`, so that a claim about every state is a claim about every setting of them (log 1). -/
structure Config where
  /-- SHIFT_FLAG_DEST (R10). -/
  shiftFlagDest : ShiftFlagDest
  /-- INDEX_FLAG_DEST (R10). -/
  indexFlagDest : IndexFlagDest
  /-- INDEX_OVERFLOW_POLICY (R10). -/
  indexOverflow : IndexOverflowPolicy
  /-- STRICT_DECODE (R10, R96, R99). -/
  strictDecode : Bool
  /-- FONT_WRITE_POLICY (R10, R66). -/
  fontWrite : FontWritePolicy
  /-- KEY_RANGE_POLICY (R10, R169). -/
  keyRange : KeyRangePolicy
  /-- STACK_DEPTH (R8, R34): `none` is the unbounded stack. -/
  stackDepth : Option Nat
  /-- TICK (R8, R156): time units in 1/60 s. -/
  tick : Nat
  /-- FONT_DATA (R8, R61): glyph `k` is bytes `5k` to `5k + 4`. -/
  fontData : Vector Byte 80
deriving DecidableEq, Repr

/-- The default FONT_DATA, glyphs 0 to F in order (70_reset_and_hazards R188; PRESUMED by the spec itself, log 10). -/
def defaultFont : Vector Byte 80 :=
  (#v[0xF0, 0x90, 0x90, 0x90, 0xF0,  0x20, 0x60, 0x20, 0x20, 0x70,
      0xF0, 0x10, 0xF0, 0x80, 0xF0,  0xF0, 0x10, 0xF0, 0x10, 0xF0] : Vector Byte 20) ++
  (#v[0x90, 0x90, 0xF0, 0x10, 0x10,  0xF0, 0x80, 0xF0, 0x10, 0xF0,
      0xF0, 0x80, 0xF0, 0x90, 0xF0,  0xF0, 0x10, 0x20, 0x40, 0x40] : Vector Byte 20) ++
  (#v[0xF0, 0x90, 0xF0, 0x90, 0xF0,  0xF0, 0x90, 0xF0, 0x10, 0xF0,
      0xF0, 0x90, 0xF0, 0x90, 0x90,  0xE0, 0x90, 0xE0, 0x90, 0xE0] : Vector Byte 20) ++
  (#v[0xF0, 0x80, 0x80, 0x80, 0xF0,  0xE0, 0x90, 0x90, 0x90, 0xE0,
      0xF0, 0x80, 0xF0, 0x80, 0xF0,  0xF0, 0x80, 0xF0, 0x80, 0x80] : Vector Byte 20)

/-- The defaults of R8, R10 and R188. TICK has no default in the spec ("model's choice"): 1000 is the example value of
95_test_vectors.md (DESIGN CHOICE, log 2). -/
def Config.default : Config where
  shiftFlagDest := .vy
  indexFlagDest := .vx
  indexOverflow := .fault
  strictDecode := true
  fontWrite := .fault
  keyRange := .fault
  stackDepth := some 16
  tick := 1000
  fontData := defaultFont

/-! ### Inputs (R16, R46) -/

/-- What the environment supplies for one step request. -/
structure Draw where
  /-- How far `Now()` has moved since the step before: a natural, so time never runs backwards (R50). -/
  elapsed : Nat
  /-- `RandByte()` (R49). -/
  randByte : Byte
  /-- `KeysHeld()` (R48). -/
  keysHeld : KeySet
  /-- The key press event delivered at this step, if any (R48, R114). -/
  keyPress : Option Key
deriving DecidableEq, Repr, Inhabited

/-- The environment's draw number `k`, where no schedule fixes it: a FREE VALUE (R16: "the model makes no assumption of its
value"; D17, D18, D29). It has no body, so nothing can be proved of it (log 3). -/
opaque Config.freeDraw : Nat → Draw

end Sys2Proof
end

