-- ==== Sys2Proof/Syntax.lean ====
section
/-! DEFINITION. The instructions: one constructor for each row of spec/opcode_table.json (30_encoding R93). The fields carry their
widths in their types, so every term is an instruction the encoding can hold (R89, R100). -/

namespace Sys2Proof

/-- The 34 decoded instructions (R93, R94). The nine `8XY_` rows are the sub-operations of the source's one ALU kind. -/
inductive Instr where
  /-- 00E0 (R149). -/
  | clearScreen
  /-- 00EE (R122). -/
  | ret
  /-- 1NNN (R123). -/
  | jump (nnn : Addr)
  /-- 2NNN (R124). -/
  | callSub (nnn : Addr)
  /-- 3XNN (R125). -/
  | skipEq (x : Reg) (nn : Byte)
  /-- 4XNN (R126). -/
  | skipNEq (x : Reg) (nn : Byte)
  /-- 5XY0 (R127). -/
  | skipRegEq (x y : Reg)
  /-- 6XNN (R130). -/
  | set (x : Reg) (nn : Byte)
  /-- 7XNN (R131). -/
  | add (x : Reg) (nn : Byte)
  /-- 8XY0 (R132). -/
  | loadRegReg (x y : Reg)
  /-- 8XY1 (R133). -/
  | or (x y : Reg)
  /-- 8XY2 (R134). -/
  | and (x y : Reg)
  /-- 8XY3 (R135). -/
  | xor (x y : Reg)
  /-- 8XY4 (R136). -/
  | addRegReg (x y : Reg)
  /-- 8XY5 (R137). -/
  | sub (x y : Reg)
  /-- 8XY6 (R138). -/
  | shiftRight (x y : Reg)
  /-- 8XY7 (R139). -/
  | subNeg (x y : Reg)
  /-- 8XYE (R140). -/
  | shiftLeft (x y : Reg)
  /-- 9XY0 (R128). -/
  | skipRegNEq (x y : Reg)
  /-- ANNN (R143). -/
  | setIndex (nnn : Addr)
  /-- BNNN (R129). -/
  | jumpWithOffset (nnn : Addr)
  /-- CXNN (R141). -/
  | random (x : Reg) (nn : Byte)
  /-- DXYN (R150). -/
  | display (x y : Reg) (n : Nibble)
  /-- EX9E (R167). -/
  | skipIfPressed (x : Reg)
  /-- EXA1 (R168). -/
  | skipIfNotPressed (x : Reg)
  /-- FX07 (R163). -/
  | getDelayTimer (x : Reg)
  /-- FX0A (R170). -/
  | waitForKey (x : Reg)
  /-- FX15 (R164). -/
  | setDelayTimer (x : Reg)
  /-- FX18 (R165). -/
  | setSoundTimer (x : Reg)
  /-- FX1E (R144). -/
  | addToIndex (x : Reg)
  /-- FX29 (R145). -/
  | setIndexToFontLocation (x : Reg)
  /-- FX33 (R146). -/
  | bcdConversion (x : Reg)
  /-- FX55 (R147). -/
  | store (x : Reg)
  /-- FX65 (R148). -/
  | load (x : Reg)
deriving DecidableEq, Repr

/-- What the decoder produces: an instruction, or the explicit unknown value with its word (R94, R101). -/
inductive Decoded where
  | known (i : Instr)
  | unknown (w : Word)
deriving DecidableEq, Repr

end Sys2Proof
end

