-- ==== Sys2Proof/Decode.lean ====
section
/-! DEFINITION. The decoder, written from the pseudocode of 30_encoding R102, and after it the encoder, written from the opcode map
of R93; both over the fields of R88. The family nibbles and selectors are the spec's (D26; PRESUMED by it, log 10). -/

namespace Sys2Proof

/-! ### Fields (R88) -/

/-- `f = w[15:12]`. -/
def fieldF (w : Word) : Nibble := w.extractLsb' 12 4

/-- `x = w[11:8]`. -/
def fieldX (w : Word) : Nibble := w.extractLsb' 8 4

/-- `y = w[7:4]`. -/
def fieldY (w : Word) : Nibble := w.extractLsb' 4 4

/-- `n = w[3:0]`. -/
def fieldN (w : Word) : Nibble := w.extractLsb' 0 4

/-- `nn = w[7:0]`. -/
def fieldNN (w : Word) : Byte := w.extractLsb' 0 8

/-- `nnn = w[11:0]`. -/
def fieldNNN (w : Word) : Addr := w.extractLsb' 0 12

/-- The word of two consecutive bytes, big-endian (R68): the byte at the lower address is the high half. -/
def wordOfBytes (hi lo : Byte) : Word := hi ++ lo

/-- The byte of a word that lies at the lower address (R68). -/
def hiByte (w : Word) : Byte := w.extractLsb' 8 8

/-- The byte of a word that lies at the higher address (R68). -/
def loByte (w : Word) : Byte := w.extractLsb' 0 8

/-! ### The decoder (R102) -/

/-- Family 0 (R96): the whole word selects; with STRICT_DECODE = false the `x` nibble is ignored. -/
def decodeFamily0 (strict : Bool) (w : Word) : Decoded :=
  if fieldNN w = 0xE0 ∧ (fieldX w = 0 ∨ strict = false) then .known .clearScreen
  else if fieldNN w = 0xEE ∧ (fieldX w = 0 ∨ strict = false) then .known .ret
  else .unknown w

/-- Families 5 and 9 (R99): only `n = 0` decodes, unless STRICT_DECODE = false. -/
def decodeRR (strict : Bool) (w : Word) (i : Reg → Reg → Instr) : Decoded :=
  if fieldN w = 0 ∨ strict = false then .known (i (fieldX w) (fieldY w)) else .unknown w

/-- Family 8 (R97): the low nibble selects the ALU sub-operation. -/
def decodeFamily8 (w : Word) : Decoded :=
  match fieldN w with
  | 0x0#4 => .known (.loadRegReg (fieldX w) (fieldY w))
  | 0x1#4 => .known (.or (fieldX w) (fieldY w))
  | 0x2#4 => .known (.and (fieldX w) (fieldY w))
  | 0x3#4 => .known (.xor (fieldX w) (fieldY w))
  | 0x4#4 => .known (.addRegReg (fieldX w) (fieldY w))
  | 0x5#4 => .known (.sub (fieldX w) (fieldY w))
  | 0x6#4 => .known (.shiftRight (fieldX w) (fieldY w))
  | 0x7#4 => .known (.subNeg (fieldX w) (fieldY w))
  | 0xE#4 => .known (.shiftLeft (fieldX w) (fieldY w))
  | _ => .unknown w

/-- Family E (R98): the low byte selects. -/
def decodeFamilyE (w : Word) : Decoded :=
  match fieldNN w with
  | 0x9E#8 => .known (.skipIfPressed (fieldX w))
  | 0xA1#8 => .known (.skipIfNotPressed (fieldX w))
  | _ => .unknown w

/-- Family F (R98): the low byte selects. -/
def decodeFamilyF (w : Word) : Decoded :=
  match fieldNN w with
  | 0x07#8 => .known (.getDelayTimer (fieldX w))
  | 0x0A#8 => .known (.waitForKey (fieldX w))
  | 0x15#8 => .known (.setDelayTimer (fieldX w))
  | 0x18#8 => .known (.setSoundTimer (fieldX w))
  | 0x1E#8 => .known (.addToIndex (fieldX w))
  | 0x29#8 => .known (.setIndexToFontLocation (fieldX w))
  | 0x33#8 => .known (.bcdConversion (fieldX w))
  | 0x55#8 => .known (.store (fieldX w))
  | 0x65#8 => .known (.load (fieldX w))
  | _ => .unknown w

/-- `decode(w)` (R101, R102): pure and total; it reads the word and STRICT_DECODE and nothing else (R105). The last line is never
reached: the sixteen values of a nibble stand above it. -/
def decode (strict : Bool) (w : Word) : Decoded :=
  match fieldF w with
  | 0x0#4 => decodeFamily0 strict w
  | 0x1#4 => .known (.jump (fieldNNN w))
  | 0x2#4 => .known (.callSub (fieldNNN w))
  | 0x3#4 => .known (.skipEq (fieldX w) (fieldNN w))
  | 0x4#4 => .known (.skipNEq (fieldX w) (fieldNN w))
  | 0x5#4 => decodeRR strict w .skipRegEq
  | 0x6#4 => .known (.set (fieldX w) (fieldNN w))
  | 0x7#4 => .known (.add (fieldX w) (fieldNN w))
  | 0x8#4 => decodeFamily8 w
  | 0x9#4 => decodeRR strict w .skipRegNEq
  | 0xA#4 => .known (.setIndex (fieldNNN w))
  | 0xB#4 => .known (.jumpWithOffset (fieldNNN w))
  | 0xC#4 => .known (.random (fieldX w) (fieldNN w))
  | 0xD#4 => .known (.display (fieldX w) (fieldY w) (fieldN w))
  | 0xE#4 => decodeFamilyE w
  | 0xF#4 => decodeFamilyF w
  | _ => .unknown w

/-- The decoder over the two bytes of an instruction as memory holds them (R68, R69). -/
def decodeBytes (strict : Bool) (hi lo : Byte) : Decoded :=
  decode strict (wordOfBytes hi lo)

/-! ### The encoder (R92, R93) -/

/-- Format A: family and `nnn`. -/
def encodeA (f : Nibble) (nnn : Addr) : Word := f ++ nnn

/-- Formats RI and R: family, `x` and the low byte. -/
def encodeRI (f : Nibble) (x : Reg) (nn : Byte) : Word := f ++ x ++ nn

/-- Formats RR, ALU and RRN: family, `x`, `y` and the low nibble. -/
def encodeRRN (f : Nibble) (x y : Reg) (n : Nibble) : Word := f ++ x ++ y ++ n

/-- The word of an instruction (R93). -/
def encode : Instr → Word
  | .clearScreen => 0x00E0
  | .ret => 0x00EE
  | .jump nnn => encodeA 0x1 nnn
  | .callSub nnn => encodeA 0x2 nnn
  | .skipEq x nn => encodeRI 0x3 x nn
  | .skipNEq x nn => encodeRI 0x4 x nn
  | .skipRegEq x y => encodeRRN 0x5 x y 0x0
  | .set x nn => encodeRI 0x6 x nn
  | .add x nn => encodeRI 0x7 x nn
  | .loadRegReg x y => encodeRRN 0x8 x y 0x0
  | .or x y => encodeRRN 0x8 x y 0x1
  | .and x y => encodeRRN 0x8 x y 0x2
  | .xor x y => encodeRRN 0x8 x y 0x3
  | .addRegReg x y => encodeRRN 0x8 x y 0x4
  | .sub x y => encodeRRN 0x8 x y 0x5
  | .shiftRight x y => encodeRRN 0x8 x y 0x6
  | .subNeg x y => encodeRRN 0x8 x y 0x7
  | .shiftLeft x y => encodeRRN 0x8 x y 0xE
  | .skipRegNEq x y => encodeRRN 0x9 x y 0x0
  | .setIndex nnn => encodeA 0xA nnn
  | .jumpWithOffset nnn => encodeA 0xB nnn
  | .random x nn => encodeRI 0xC x nn
  | .display x y n => encodeRRN 0xD x y n
  | .skipIfPressed x => encodeRI 0xE x 0x9E
  | .skipIfNotPressed x => encodeRI 0xE x 0xA1
  | .getDelayTimer x => encodeRI 0xF x 0x07
  | .waitForKey x => encodeRI 0xF x 0x0A
  | .setDelayTimer x => encodeRI 0xF x 0x15
  | .setSoundTimer x => encodeRI 0xF x 0x18
  | .addToIndex x => encodeRI 0xF x 0x1E
  | .setIndexToFontLocation x => encodeRI 0xF x 0x29
  | .bcdConversion x => encodeRI 0xF x 0x33
  | .store x => encodeRI 0xF x 0x55
  | .load x => encodeRI 0xF x 0x65

/-! ### The rows of spec/opcode_table.json -/

/-- The row's "mask" and "match" in spec/opcode_table.json (STRICT_DECODE = true). -/
def Instr.tableRow : Instr → Word × Word
  | .clearScreen => (0xFFFF, 0x00E0)
  | .ret => (0xFFFF, 0x00EE)
  | .jump _ => (0xF000, 0x1000)
  | .callSub _ => (0xF000, 0x2000)
  | .skipEq _ _ => (0xF000, 0x3000)
  | .skipNEq _ _ => (0xF000, 0x4000)
  | .skipRegEq _ _ => (0xF00F, 0x5000)
  | .set _ _ => (0xF000, 0x6000)
  | .add _ _ => (0xF000, 0x7000)
  | .loadRegReg _ _ => (0xF00F, 0x8000)
  | .or _ _ => (0xF00F, 0x8001)
  | .and _ _ => (0xF00F, 0x8002)
  | .xor _ _ => (0xF00F, 0x8003)
  | .addRegReg _ _ => (0xF00F, 0x8004)
  | .sub _ _ => (0xF00F, 0x8005)
  | .shiftRight _ _ => (0xF00F, 0x8006)
  | .subNeg _ _ => (0xF00F, 0x8007)
  | .shiftLeft _ _ => (0xF00F, 0x800E)
  | .skipRegNEq _ _ => (0xF00F, 0x9000)
  | .setIndex _ => (0xF000, 0xA000)
  | .jumpWithOffset _ => (0xF000, 0xB000)
  | .random _ _ => (0xF000, 0xC000)
  | .display _ _ _ => (0xF000, 0xD000)
  | .skipIfPressed _ => (0xF0FF, 0xE09E)
  | .skipIfNotPressed _ => (0xF0FF, 0xE0A1)
  | .getDelayTimer _ => (0xF0FF, 0xF007)
  | .waitForKey _ => (0xF0FF, 0xF00A)
  | .setDelayTimer _ => (0xF0FF, 0xF015)
  | .setSoundTimer _ => (0xF0FF, 0xF018)
  | .addToIndex _ => (0xF0FF, 0xF01E)
  | .setIndexToFontLocation _ => (0xF0FF, 0xF029)
  | .bcdConversion _ => (0xF0FF, 0xF033)
  | .store _ => (0xF0FF, 0xF055)
  | .load _ => (0xF0FF, 0xF065)

/-- The word lies in the instruction's row: its fixed bits are the row's. -/
def Instr.matchesRow (i : Instr) (w : Word) : Bool :=
  w &&& i.tableRow.1 == i.tableRow.2

/-! ### The host's entry -/

/-- The 16-bit word of an instruction whose bits are `w` in the table's numbering; the bits above `nbits` are zero. -/
def tableWord (nbits w : Nat) : Word := BitVec.ofNat 16 (w % 2 ^ nbits)

/-- The instruction the decoder reads from the two bytes of the word, laid out high byte first (R68), under the default STRICT_DECODE
of R10 (log 9); `none` where the word is Unknown. -/
def decodeTableWord (nbits w : Nat) : Option Instr :=
  match decodeBytes Config.default.strictDecode (hiByte (tableWord nbits w)) (loByte (tableWord nbits w)) with
  | .known i => some i
  | .unknown _ => none

end Sys2Proof
end

