-- ==== Sys2Proof/WellFormed.lean ====
section
/-! DEFINITION. The checks on the data the model is given from outside: the parameters (00_scope R8) and a ROM image (20_memory
R74). An instruction needs no check: its fields have the widths of the encoding, and "every value of their fields names a valid
instruction" (30_encoding R100). -/

namespace Sys2Proof

/-- STACK_DEPTH is a natural at least 16, or unbounded (R8). -/
def Config.stackDepthOk (c : Config) : Bool :=
  match c.stackDepth with
  | none => true
  | some d => decide (16 ≤ d)

/-- TICK is a positive natural (R8). -/
def Config.tickOk (c : Config) : Bool :=
  decide (0 < c.tick)

/-- The parameters lie in the domains of R8. (The others are closed types, and FONT_DATA has 80 bytes by its type.) -/
def Config.wellFormed (c : Config) : Bool :=
  c.stackDepthOk && c.tickOk

/-- A ROM image fits the program region (R74): `len ≤ 3584`. -/
def romFits (rom : List Byte) : Bool :=
  decide (rom.length ≤ progMaxLen)

end Sys2Proof
end

