-- ==== Sys2Proof/Machine/State.lean ====
section
/-! DEFINITION. The state of the engine: every piece of 10_state R54, the static parameters, and the inputs of the current step.
Plain data throughout. -/

namespace Sys2Proof.Machine

/-- The engine mode (R40). -/
inductive Mode where
  /-- After reset, before a successful ROM load. -/
  | idle
  /-- Each step fetches, decodes and executes one instruction. -/
  | run
  /-- WaitForKey is blocked (R170). -/
  | waitKey
  /-- A fatal fault occurred (R175). -/
  | faulted
deriving DecidableEq, Repr

/-- The seven fault causes (R172). -/
inductive FaultCause where
  /-- Execute of Unknown(w) (R120); info: the word. -/
  | unknownOpcode
  /-- Return with an empty stack (R122); no info. -/
  | stackUnderflow
  /-- CallSub with a full stack (R124); no info. -/
  | stackOverflow
  /-- A data access at an address ≥ 4096 (R65); info: the lowest offending address. -/
  | addressRange
  /-- A write to the font region (R66); info: the lowest offending address. -/
  | fontWrite
  /-- AddToIndex past 16 bits (R144); info: the sum. -/
  | indexOverflow
  /-- A key index above 15 (R169); info: the key index. -/
  | keyRange
deriving DecidableEq, Repr

/-- The fault record (R42, R174): the cause, the instruction's word `w` and address `a`, and the info value. -/
structure FaultRecord where
  cause : FaultCause
  word : Word
  addr : Word
  info : Option Nat
deriving DecidableEq, Repr

/-- A countdown timer (R35, R155): the stored value and the reference time, in units of `Now()`. -/
structure Timer where
  val : Byte
  ref : Nat
deriving DecidableEq, Repr

/-- The inputs as the current step reads them (R16, R118). -/
structure Inputs where
  /-- `Now()` (R50). -/
  now : Nat
  /-- `RandByte()` (R49). -/
  randByte : Byte
  /-- `KeysHeld()` (R48). -/
  keysHeld : KeySet
  /-- The key press delivered, if any (R48). -/
  keyPress : Option Key
deriving DecidableEq, Repr

/-- The 16 general registers (R23). -/
abbrev RegFile := Vector Byte 16

/-- The framebuffer, row-major (R43): 32 rows of 64 pixels; `FB[x][y]` is `fb[y][x]`. -/
abbrev Framebuffer := Vector (Vector Bool 64) 32

/-- Memory (R57): address and byte, addresses strictly rising, no entry equal to what its address holds at reset
(`Memory.wf`). An unlisted address holds its reset contents (log 8). -/
abbrev Memory := List Host.Cell

/-- The state of the engine. -/
structure State where
  /-- The static parameters (R8, R10, R39); no step changes them (log 1). -/
  config : Config
  /-- `V[0]` .. `V[15]` (R23). -/
  v : RegFile
  /-- The program counter (R26). -/
  pc : Word
  /-- The index register `I` (R31). -/
  index : Word
  /-- The call stack `S`, top at the end (R33). -/
  stack : List Word
  /-- The delay timer `DT` (R35). -/
  dt : Timer
  /-- The sound timer `ST` (R36). -/
  st : Timer
  /-- The memory `M` (R57). -/
  mem : Memory
  /-- The framebuffer `FB` (R43). -/
  fb : Framebuffer
  /-- The engine mode (R40). -/
  mode : Mode
  /-- The key-wait target `wait_x` (R41). -/
  waitX : Reg
  /-- The fault record (R42). -/
  fault : Option FaultRecord
  /-- `a` of `Execute(ins, w, a)` (R111): the address of the instruction being executed. The model's own (log 15). -/
  curAddr : Word
  /-- `w` of `Execute(ins, w, a)` (R111): its word. The model's own. -/
  curWord : Word
  /-- The inputs of the current step (R16, R118). -/
  input : Inputs
  /-- The draws fixed for the coming steps, oldest first. The model's own (log 3). -/
  schedule : List Draw
  /-- How many draws have been made. The model's own (log 3). -/
  drawIndex : Nat
deriving DecidableEq, Repr

/-- The faults that stop the model: there are none. A fatal fault of the engine is a state (mode FAULTED with its record, R174), so
`State.raise` gives a next state (log 6). -/
inductive Fault where
deriving DecidableEq, Repr

/-- The refusals. -/
inductive Refusal where
  /-- `exec`'s arm of an instruction that has no meaning yet; no arm raises it now. Safe: nothing can be proved of that run. -/
  | notModelled (mnemonic : String)
deriving DecidableEq, Repr

/-- The outcome of a step or of an instruction. -/
abbrev Result := Host.Outcome State Fault Refusal

/-- Reset ("machine creation", R189) at time `t` with the parameters `c`: every value of R54. Memory lists nothing: each address holds its
reset contents (log 8). -/
def State.resetWith (c : Config) (t : Nat) : State where
  config := c
  v := Vector.replicate 16 0
  pc := 0x200
  index := 0
  stack := []
  dt := { val := 0, ref := t }
  st := { val := 0, ref := t }
  mem := []
  fb := Vector.replicate 32 (Vector.replicate 64 false)
  mode := .idle
  waitX := 0
  fault := none
  curAddr := 0
  curWord := 0
  input := { now := t, randByte := 0, keysHeld := Vector.replicate 16 false, keyPress := none }
  schedule := []
  drawIndex := 0

/-- The machine right after reset (R54), with the default parameters (R8, R10; log 2) and time counted from there (log 4). -/
def State.reset : State := State.resetWith Config.default 0

end Sys2Proof.Machine
end

