-- ==== Sys2Proof/Machine/Ops.lean ====
section
/-! DEFINITION. The named operations over registers, memory, stack and framebuffer; fetch; the address checks; and taking a fatal
fault, which is the engine's only exception (60_exceptions R172 to R180). -/

namespace Sys2Proof.Machine

/-! ### General registers (R23, R24) -/

/-- `V[x]`. -/
def State.reg (s : State) (x : Reg) : Byte := s.v[x.toNat]'x.isLt

/-- `V[x] <- b`. -/
def State.setReg (s : State) (x : Reg) (b : Byte) : State :=
  { s with v := s.v.set x.toNat b x.isLt }

/-- `V[k], V[k+1], .. <- bytes`, as far as there are registers (Load, R148, stays within them). -/
def RegFile.writeFrom (v : RegFile) (k : Nat) : List Byte → RegFile
  | [] => v
  | b :: bs => RegFile.writeFrom (v.setIfInBounds k b) (k + 1) bs

/-- `V[0], V[1], .. <- bytes` (R148). -/
def State.setRegs (s : State) (bytes : List Byte) : State :=
  { s with v := RegFile.writeFrom s.v 0 bytes }

/-! ### Memory (R57, R64) -/

/-- What address `a` holds at reset (R54): FONT_DATA at 0x050 .. 0x09F, zero elsewhere; also what an unlisted address reads as. -/
def Memory.initial (font : Vector Byte 80) (a : Nat) : Byte :=
  if h : fontBase ≤ a ∧ a < fontBase + fontLen then
    font[a - fontBase]'(by simp only [fontBase, fontLen] at h ⊢; omega)
  else 0

/-- `M[a]` (R14). -/
def Memory.read (font : Vector Byte 80) : Memory → Nat → Byte
  | [], a => Memory.initial font a
  | (k, c) :: m, a => if a = k then c else Memory.read font m a

/-- `M[a] <- b` (R14), keeping the canonical form: the entry is left out where `b` is the reset contents of `a`. -/
def Memory.write (font : Vector Byte 80) : Memory → Nat → Byte → Memory
  | [], a, b => if b = Memory.initial font a then [] else [(a, b)]
  | (k, c) :: m, a, b =>
    if a < k then
      if b = Memory.initial font a then (k, c) :: m else (a, b) :: (k, c) :: m
    else if a = k then
      if b = Memory.initial font a then m else (a, b) :: m
    else (k, c) :: Memory.write font m a b

/-- `M[a], M[a+1], .. <- bytes`, lowest address first. -/
def Memory.writeBytes (font : Vector Byte 80) (m : Memory) (a : Nat) : List Byte → Memory
  | [] => m
  | b :: bs => Memory.writeBytes font (Memory.write font m a b) (a + 1) bs

/-- The canonical form: addresses strictly rising, each below 4096 (R58), and no entry equal to the reset contents. -/
abbrev Memory.wf (font : Vector Byte 80) (m : Memory) : Prop :=
  m.Pairwise (fun c d => c.1 < d.1) ∧ ∀ c ∈ m, c.1 < memSize ∧ c.2 ≠ Memory.initial font c.1

/-- The byte at address `a`. -/
def State.readByte (s : State) (a : Nat) : Byte := s.mem.read s.config.fontData a

/-- The `n` bytes from address `a` up. -/
def State.readBytes (s : State) (a n : Nat) : List Byte :=
  (List.range n).map fun k => s.readByte (a + k)

/-- Store the bytes from address `a` up (the checks of R65 and R66 come before, R116). -/
def State.writeBytes (s : State) (a : Nat) (bytes : List Byte) : State :=
  { s with mem := s.mem.writeBytes s.config.fontData a bytes }

/-! ### Fatal faults: taking one, and the checks (R15, R116, R172 to R175) -/

/-- Why a fault is raised: cause and info (R172). -/
structure FaultReason where
  cause : FaultCause
  info : Option Nat
deriving DecidableEq, Repr

/-- The cause's code number (R172). -/
def FaultCause.code : FaultCause → Nat
  | .unknownOpcode => 1
  | .stackUnderflow => 2
  | .stackOverflow => 3
  | .addressRange => 4
  | .fontWrite => 5
  | .indexOverflow => 6
  | .keyRange => 7

/-- `raise` (R15, R174): record (cause, w, a, info) and enter FAULTED; nothing else changes, and `pc` keeps the fetch's advance.
There is no handler and no return from it (R179, R180): only reset leaves FAULTED (R189). -/
def State.raise (s : State) (r : FaultReason) : State :=
  { s with
    mode := .faulted
    fault := some { cause := r.cause, word := s.curWord, addr := s.curAddr, info := r.info } }

/-- All or nothing (R116): where a check finds a fault it is raised on `s`; else the step's effect `t` is the result. -/
def State.raiseOr (s : State) (check : Option FaultReason) (t : State) : State :=
  match check with
  | some r => s.raise r
  | none => t

/-- The lowest of the `n` addresses from `a` up that is `bad`. -/
def lowestAddr (bad : Nat → Bool) (a n : Nat) : Option Nat := (List.range' a n).find? bad

/-- Address outside the memory (R65). -/
def outOfRange (a : Nat) : Bool := decide (memSize ≤ a)

/-- Address in the font region (R60, R66). -/
def inFont (a : Nat) : Bool := decide (fontBase ≤ a ∧ a < fontBase + fontLen)

/-- The range check of an access to the `n` bytes from `a` up (R65): ADDRESS_RANGE with the lowest offending address. -/
def rangeFault (a n : Nat) : Option FaultReason :=
  (lowestAddr outOfRange a n).map fun b => { cause := .addressRange, info := some b }

/-- The font check of a write to the `n` bytes from `a` up (R66): FONT_WRITE with the lowest offending address, if the policy is
FAULT. -/
def fontFault (c : Config) (a n : Nat) : Option FaultReason :=
  match c.fontWrite with
  | .write => none
  | .fault => (lowestAddr inFont a n).map fun b => { cause := .fontWrite, info := some b }

/-- The checks of a write, in the order of R177: the range before the font. -/
def writeFault (c : Config) (a n : Nat) : Option FaultReason :=
  (rangeFault a n).or (fontFault c a n)

/-! ### The call stack (R33, R34) -/

/-- STACK_OVERFLOW when `len(S) = STACK_DEPTH`; never with the unbounded stack (R124). -/
def stackOverflowFault (c : Config) (stack : List Word) : Option FaultReason :=
  match c.stackDepth with
  | none => none
  | some d => if stack.length = d then some { cause := .stackOverflow, info := none } else none

/-- `S <- S ++ [r]`. -/
def State.push (s : State) (r : Word) : State := { s with stack := s.stack ++ [r] }

/-! ### The framebuffer (R43) -/

/-- `FB[px][py]`. -/
def Framebuffer.pixel (fb : Framebuffer) (px : Fin 64) (py : Fin 32) : Bool := fb[py][px]

/-- `FB[px][py] <- not FB[px][py]`. -/
def Framebuffer.toggle (fb : Framebuffer) (px : Fin 64) (py : Fin 32) : Framebuffer :=
  fb.set py (fb[py].set px (!fb[py][px]))

/-- Every pixel false (R149). -/
def Framebuffer.clear : Framebuffer := Vector.replicate 32 (Vector.replicate 64 false)

/-! ### Fetch (R69, R112) and the program counter (R28, R29) -/

/-- `Fetch()` (R69): the word at `pc mod 4096`, big-endian, and `pc` advanced by 2; the address and the word are kept for `Execute`
(R111). It never faults. -/
def State.fetch (s : State) : State :=
  { s with
    curAddr := s.pc
    curWord := wordOfBytes (s.readByte (s.pc.toNat % memSize)) (s.readByte ((s.pc.toNat + 1) % memSize))
    pc := s.pc + 2 }

/-- `pc <- target` (R29). -/
def State.jumpTo (s : State) (target : Word) : State := { s with pc := target }

/-- A skip: `pc <- (pc + 2) mod 2^16` when the condition holds (R113). -/
def State.skipIf (s : State) (cond : Bool) : State :=
  if cond then { s with pc := s.pc + 2 } else s

/-- Put the two bytes of a word where the next fetch reads them, and let the engine run: what a ROM load does for that word
(R73), at any `pc`. The host's `withFetchWord` is this. -/
def State.placeWord (s : State) (w : Word) : State :=
  { s with
    mem := ((s.mem.write s.config.fontData (s.pc.toNat % memSize) (hiByte w)).write s.config.fontData
      ((s.pc.toNat + 1) % memSize) (loByte w))
    mode := .run }

end Sys2Proof.Machine
end

