-- ==== Sys2Proof/Machine/Operands.lean ====
section
/-! DEFINITION. The operand forms (30_encoding R89, R90): widened immediates, register ranges, addresses through `I`, the glyph address,
the decimal digits, the sprite's place. -/

namespace Sys2Proof.Machine

/-- `zext_16(nnn)` (R89, R12). -/
def zextAddr (nnn : Addr) : Word := nnn.setWidth 16

/-- `zext_16` of a byte (R12). -/
def zextByte (b : Byte) : Word := b.setWidth 16

/-- The flag register VF (R25). -/
def regF : Reg := 15

/-- How many registers `V[0] .. V[x]` are (R90): `x + 1`. -/
def regCount (x : Reg) : Nat := x.toNat + 1

/-- The bytes `V[0], .., V[x]` (R147). -/
def State.regsUpTo (s : State) (x : Reg) : List Byte := s.v.toList.take (regCount x)

/-- The address of an access through `I` (43_index_memory): a natural, not wrapped; its k-th byte lies `k` above. -/
def State.indexAddr (s : State) : Nat := s.index.toNat

/-- The target of JumpWithOffset (R129): `zext_16(nnn) + zext_16(V[0])`. -/
def State.offsetTarget (s : State) (nnn : Addr) : Word := zextAddr nnn + zextByte (s.reg 0)

/-- The address of glyph `b` (R145): `0x050 + 5 * b`, with no reduction of `b`. -/
def glyphAddr (b : Byte) : Word := BitVec.ofNat 16 (fontBase + 5 * b.toNat)

/-- The decimal digits of a byte, hundreds first (R146). -/
def bcdDigits (b : Byte) : List Byte :=
  [BitVec.ofNat 8 (b.toNat / 100), BitVec.ofNat 8 (b.toNat / 10 % 10), BitVec.ofNat 8 (b.toNat % 10)]

/-- The sprite's left column (R150, R152): `V[x] mod 64`. -/
def State.spriteX (s : State) (x : Reg) : Nat := (s.reg x).toNat % 64

/-- The sprite's top row (R150, R152): `V[y] mod 32`. -/
def State.spriteY (s : State) (y : Reg) : Nat := (s.reg y).toNat % 32

/-- `V[x]` names a key above 15 and the policy is FAULT: KEY_RANGE with the index (R169). -/
def keyRangeFault (c : Config) (k : Byte) : Option FaultReason :=
  match c.keyRange with
  | .notPressed => none
  | .fault => if 15 < k.toNat then some { cause := .keyRange, info := some k.toNat } else none

/-- `k in KeysHeld()` (R167): no key above 15 is in it (R169). -/
def State.keyHeld (s : State) (k : Byte) : Bool :=
  if h : k.toNat < 16 then s.input.keysHeld[k.toNat] else false

end Sys2Proof.Machine
end

