-- ==== Sys2Proof/Machine/Flags.lean ====
section
/-! DEFINITION. The flag computations (10_state R38). The engine's only flag is VF; the shifts and AddToIndex send theirs where the
parameters say (R10). -/

namespace Sys2Proof.Machine

/-- A flag as a register value: 1 or 0 (R38). -/
def flagByte (b : Bool) : Byte := if b then 1 else 0

/-- The carry of AddRegReg (R136): the sum exceeds 255. -/
def carryOut (a b : Byte) : Bool := decide (255 < a.toNat + b.toNat)

/-- No borrow of `a - b` (R137, R139): the minuend is at least the subtrahend. -/
def noBorrow (a b : Byte) : Bool := decide (b.toNat ≤ a.toNat)

/-- The bit ShiftRight moves out (R138): bit 0. -/
def shiftedOutRight (a : Byte) : Bool := a.getLsbD 0

/-- The bit ShiftLeft moves out (R140): bit 7. -/
def shiftedOutLeft (a : Byte) : Bool := a.getLsbD 7

/-- AddToIndex newly passes 0xFFF (R144). -/
def passesFFF (old new : Nat) : Bool := decide (old ≤ 0xFFF ∧ 0xFFF < new)

/-- SHIFT_FLAG_DEST (R10, R138): `V[y]` or VF. -/
def shiftFlagReg (c : Config) (y : Reg) : Reg :=
  match c.shiftFlagDest with
  | .vy => y
  | .vf => regF

/-- INDEX_FLAG_DEST (R10, R144): `V[x]` or VF. -/
def indexFlagReg (c : Config) (x : Reg) : Reg :=
  match c.indexFlagDest with
  | .vx => x
  | .vf => regF

/-- The result, then the flag (R117): where both go to one register the flag is what remains. -/
def State.setRegFlag (s : State) (x : Reg) (result : Byte) (f : Reg) (flag : Bool) : State :=
  (s.setReg x result).setReg f (flagByte flag)

end Sys2Proof.Machine
end

