-- ==== Sys2Proof/Machine/Keypad.lean ====
section
/-! DEFINITION. Keypad operations (46_keypad R166 to R171). -/

namespace Sys2Proof.Machine

/-- SkipIfPressed, EX9E (R167, R169). -/
def execSkipIfPressed (x : Reg) (s : State) : Result :=
  .next (s.raiseOr (keyRangeFault s.config (s.reg x)) (s.skipIf (s.keyHeld (s.reg x))))

/-- SkipIfNotPressed, EXA1 (R168, R169). -/
def execSkipIfNotPressed (x : Reg) (s : State) : Result :=
  .next (s.raiseOr (keyRangeFault s.config (s.reg x)) (s.skipIf (!s.keyHeld (s.reg x))))

/-- WaitForKey, FX0A (R170): the step ends in WAIT_KEY; `V[x]` is written on completion. -/
def execWaitForKey (x : Reg) (s : State) : Result :=
  .next { s with waitX := x, mode := .waitKey }

/-- A step request in WAIT_KEY (R114, R171): a key press completes the wait; without one the engine has no step and nothing changes. -/
def State.waitStep (s : State) : State :=
  match s.input.keyPress with
  | some k => { s.setReg s.waitX (k.setWidth 8) with mode := .run }
  | none => s

end Sys2Proof.Machine
end

