-- ==== Sys2Proof/Machine/Cycle.lean ====
section
/-! DEFINITION. The execution cycle (40_cycle R109 to R120), over the function that gives each instruction its meaning: what
`Machine/Step.lean` calls with `exec`. -/

namespace Sys2Proof.Machine

/-- The draw for the next step (R16): the oldest scheduled one, else the free value (log 3). -/
def State.nextDraw (s : State) : Draw :=
  match s.schedule with
  | d :: _ => d
  | [] => Config.freeDraw s.drawIndex

/-- Draw the inputs of a step (R118): time moves on by the elapsed amount (R50), the other inputs are replaced
(log 14). -/
def State.sample (s : State) : State :=
  let d := s.nextDraw
  { s with
    input := { now := s.input.now + d.elapsed, randByte := d.randByte, keysHeld := d.keysHeld, keyPress := d.keyPress }
    schedule := s.schedule.tail
    drawIndex := s.drawIndex + 1 }

/-- Executing Unknown(w) (R120): UNKNOWN_OPCODE with the word. -/
def execUnknown (w : Word) (s : State) : Result :=
  .next (s.raise { cause := .unknownOpcode, info := some w.toNat })

/-- `Execute(ins, w, a)` of R111 for what the decoder produced. -/
def executeWith (execute : Instr → State → Result) (d : Decoded) (s : State) : Result :=
  match d with
  | .known i => execute i s
  | .unknown w => execUnknown w s

/-- `StepRun()` (R111): fetch, decode, execute. -/
def stepRunWith (execute : Instr → State → Result) (s : State) : Result :=
  executeWith execute (decode s.config.strictDecode s.fetch.curWord) s.fetch

/-- One step request (R51, R110): the inputs are drawn, then the mode decides (R114, R115). In IDLE and FAULTED the engine has no step:
only the inputs move (log 7). -/
def stepWith (execute : Instr → State → Result) (s : State) : Result :=
  match s.mode with
  | .idle => .next s.sample
  | .run => stepRunWith execute s.sample
  | .waitKey => .next s.sample.waitStep
  | .faulted => .next s.sample

end Sys2Proof.Machine
end

