-- ==== Sys2Proof/Machine/Alu.lean ====
section
/-! DEFINITION. Register and ALU operations (42_register_alu R130 to R142). All arithmetic is unsigned modulo 256. -/

namespace Sys2Proof.Machine

/-- Set, 6XNN (R130). -/
def execSet (x : Reg) (nn : Byte) (s : State) : Result :=
  .next (s.setReg x nn)

/-- Add, 7XNN (R131): no flag. -/
def execAdd (x : Reg) (nn : Byte) (s : State) : Result :=
  .next (s.setReg x (s.reg x + nn))

/-- LoadRegReg, 8XY0 (R132). -/
def execLoadRegReg (x y : Reg) (s : State) : Result :=
  .next (s.setReg x (s.reg y))

/-- Or, 8XY1 (R133): VF is not reset. -/
def execOr (x y : Reg) (s : State) : Result :=
  .next (s.setReg x (s.reg x ||| s.reg y))

/-- And, 8XY2 (R134): VF is not reset. -/
def execAnd (x y : Reg) (s : State) : Result :=
  .next (s.setReg x (s.reg x &&& s.reg y))

/-- Xor, 8XY3 (R135): VF is not reset. -/
def execXor (x y : Reg) (s : State) : Result :=
  .next (s.setReg x (s.reg x ^^^ s.reg y))

/-- AddRegReg, 8XY4 (R136). -/
def execAddRegReg (x y : Reg) (s : State) : Result :=
  .next (s.setRegFlag x (s.reg x + s.reg y) regF (carryOut (s.reg x) (s.reg y)))

/-- Sub, 8XY5 (R137). -/
def execSub (x y : Reg) (s : State) : Result :=
  .next (s.setRegFlag x (s.reg x - s.reg y) regF (noBorrow (s.reg x) (s.reg y)))

/-- ShiftRight, 8XY6 (R138): the operand is always `V[x]`. -/
def execShiftRight (x y : Reg) (s : State) : Result :=
  .next (s.setRegFlag x (s.reg x >>> 1) (shiftFlagReg s.config y) (shiftedOutRight (s.reg x)))

/-- SubNeg, 8XY7 (R139). -/
def execSubNeg (x y : Reg) (s : State) : Result :=
  .next (s.setRegFlag x (s.reg y - s.reg x) regF (noBorrow (s.reg y) (s.reg x)))

/-- ShiftLeft, 8XYE (R140): the operand is always `V[x]`. -/
def execShiftLeft (x y : Reg) (s : State) : Result :=
  .next (s.setRegFlag x (s.reg x <<< 1) (shiftFlagReg s.config y) (shiftedOutLeft (s.reg x)))

/-- Random, CXNN (R141): the step's random byte, masked. -/
def execRandom (x : Reg) (nn : Byte) (s : State) : Result :=
  .next (s.setReg x (s.input.randByte &&& nn))

end Sys2Proof.Machine
end

