-- ==== Sys2Proof/Machine/Control.lean ====
section
/-! DEFINITION. Control transfer (41_control R122 to R129). Each meaning runs after the fetch: `pc` already holds `a + 2` (R112). -/

namespace Sys2Proof.Machine

/-- Return, 00EE (R122). -/
def execRet (s : State) : Result :=
  .next <| match s.stack.getLast? with
    | none => s.raise { cause := .stackUnderflow, info := none }
    | some r => ({ s with stack := s.stack.dropLast }).jumpTo r

/-- Jump, 1NNN (R123). -/
def execJump (nnn : Addr) (s : State) : Result :=
  .next (s.jumpTo (zextAddr nnn))

/-- CallSub, 2NNN (R124): the return address pushed is `pc`, that is `a + 2`. -/
def execCallSub (nnn : Addr) (s : State) : Result :=
  .next (s.raiseOr (stackOverflowFault s.config s.stack) ((s.push s.pc).jumpTo (zextAddr nnn)))

/-- SkipEq, 3XNN (R125). -/
def execSkipEq (x : Reg) (nn : Byte) (s : State) : Result :=
  .next (s.skipIf (s.reg x == nn))

/-- SkipNEq, 4XNN (R126). -/
def execSkipNEq (x : Reg) (nn : Byte) (s : State) : Result :=
  .next (s.skipIf (s.reg x != nn))

/-- SkipRegEq, 5XY0 (R127). -/
def execSkipRegEq (x y : Reg) (s : State) : Result :=
  .next (s.skipIf (s.reg x == s.reg y))

/-- SkipRegNEq, 9XY0 (R128). -/
def execSkipRegNEq (x y : Reg) (s : State) : Result :=
  .next (s.skipIf (s.reg x != s.reg y))

/-- JumpWithOffset, BNNN (R129): the offset is always `V[0]`; the sum is not reduced to 12 bits (D34). -/
def execJumpWithOffset (nnn : Addr) (s : State) : Result :=
  .next (s.jumpTo (s.offsetTarget nnn))

end Sys2Proof.Machine
end

