-- ==== Sys2Proof/Machine/Display.lean ====
section
/-! DEFINITION. Framebuffer operations (44_display R149 to R154). -/

namespace Sys2Proof.Machine

/-- ClearScreen, 00E0 (R149). -/
def execClearScreen (s : State) : Result :=
  .next { s with fb := Framebuffer.clear }

/-- A framebuffer being drawn on, and the collision so far: `FB` and `c` of R150. -/
structure Canvas where
  fb : Framebuffer
  collision : Bool
deriving DecidableEq, Repr

/-- One sprite bit at column `px`, row `py` (R150): a 1 bit on the screen toggles the pixel and collides if it was set; a 0 bit, or a
bit outside the screen, does nothing (R152). -/
def Canvas.drawBit (c : Canvas) (px py : Nat) (bit : Bool) : Canvas :=
  if h : px < 64 ∧ py < 32 ∧ bit = true then
    { fb := c.fb.toggle ⟨px, h.1⟩ ⟨py, h.2.1⟩
      collision := c.collision || c.fb.pixel ⟨px, h.1⟩ ⟨py, h.2.1⟩ }
  else c

/-- One sprite row from column `x0` (R150, R151): bit 7 is leftmost. -/
def Canvas.drawRow (c : Canvas) (x0 py : Nat) (row : Byte) : Canvas :=
  (List.range 8).foldl (fun c b => c.drawBit (x0 + b) py (row.getLsbD (7 - b))) c

/-- The sprite's rows from row `y0` down (R150). -/
def Canvas.drawRows (c : Canvas) (x0 y0 : Nat) : List Byte → Canvas
  | [] => c
  | row :: rows => (c.drawRow x0 y0 row).drawRows x0 (y0 + 1) rows

/-- `FB` after the sprite, and the collision (R150, R153: computed fresh). -/
def State.drawSprite (s : State) (x y : Reg) (rows : List Byte) : Canvas :=
  Canvas.drawRows { fb := s.fb, collision := false } (s.spriteX x) (s.spriteY y) rows

/-- Display, DXYN (R150): every row is checked and read, clipped rows too, before anything is drawn; VF last. -/
def execDisplay (x y : Reg) (n : Nibble) (s : State) : Result :=
  let c := s.drawSprite x y (s.readBytes s.indexAddr n.toNat)
  .next (s.raiseOr (rangeFault s.indexAddr n.toNat)
    (({ s with fb := c.fb }).setReg regF (flagByte c.collision)))

end Sys2Proof.Machine
end

