-- ==== Sys2Proof/Machine/IndexMemory.lean ====
section
/-! DEFINITION. Index register and memory operations (43_index_memory R143 to R148). No access changes `I` (D16); every check comes
before any write (R116). -/

namespace Sys2Proof.Machine

/-- SetIndex, ANNN (R143). -/
def execSetIndex (nnn : Addr) (s : State) : Result :=
  .next { s with index := zextAddr nnn }

/-- INDEX_OVERFLOW when the sum passes 16 bits and the policy is FAULT (R144). -/
def indexOverflowFault (c : Config) (sum : Nat) : Option FaultReason :=
  match c.indexOverflow with
  | .wrap => none
  | .fault => if 0xFFFF < sum then some { cause := .indexOverflow, info := some sum } else none

/-- `I <- sum`, stored in 16 bits, then the overflow flag, which is set to 1 or left alone (R144). -/
def State.addIndex (s : State) (x : Reg) (sum : Nat) : State :=
  let t := { s with index := BitVec.ofNat 16 sum }
  if passesFFF s.index.toNat (sum % 2 ^ 16) then t.setReg (indexFlagReg s.config x) 1 else t

/-- AddToIndex, FX1E (R144). -/
def execAddToIndex (x : Reg) (s : State) : Result :=
  let sum := s.index.toNat + (s.reg x).toNat
  .next (s.raiseOr (indexOverflowFault s.config sum) (s.addIndex x sum))

/-- SetIndexToFontLocation, FX29 (R145). -/
def execSetIndexToFontLocation (x : Reg) (s : State) : Result :=
  .next { s with index := glyphAddr (s.reg x) }

/-- Write the bytes at `I` up, if the checks of R65 and R66 let them (R116): what Store and BCDConversion share. -/
def State.storeAtIndex (s : State) (bytes : List Byte) : State :=
  s.raiseOr (writeFault s.config s.indexAddr bytes.length) (s.writeBytes s.indexAddr bytes)

/-- BCDConversion, FX33 (R146). -/
def execBcdConversion (x : Reg) (s : State) : Result :=
  .next (s.storeAtIndex (bcdDigits (s.reg x)))

/-- Store, FX55 (R147). -/
def execStore (x : Reg) (s : State) : Result :=
  .next (s.storeAtIndex (s.regsUpTo x))

/-- Load, FX65 (R148). -/
def execLoad (x : Reg) (s : State) : Result :=
  .next (s.raiseOr (rangeFault s.indexAddr (regCount x))
    (s.setRegs (s.readBytes s.indexAddr (regCount x))))

end Sys2Proof.Machine
end

