-- ==== Sys2Proof/Machine/Timers.lean ====
section
/-! DEFINITION. The timer countdown engine and the timer instructions (45_timers R155 to R165). -/

namespace Sys2Proof.Machine

/-- Whole ticks since the reference, at time `t` (R156; where no run comes, log 16). -/
def Timer.ticksAt (tick t : Nat) (T : Timer) : Nat := (t - T.ref) / tick

/-- The value a read at time `t` gives (R158): it saturates at 0, and is 0 past 255 ticks. -/
def Timer.valueAt (tick t : Nat) (T : Timer) : Byte :=
  let k := T.ticksAt tick t
  if 255 < k then 0 else if k ≤ T.val.toNat then BitVec.ofNat 8 (T.val.toNat - k) else 0

/-- `TimerSet(T, v)` at time `t` (R157). -/
def Timer.setAt (t : Nat) (b : Byte) : Timer := { val := b, ref := t }

/-- The timer after `TimerGet(T)` at time `t` (R158): the value read is stored, and the reference moves by the whole ticks only. -/
def Timer.afterGet (tick t : Nat) (T : Timer) : Timer :=
  { val := T.valueAt tick t, ref := T.ref + T.ticksAt tick t * tick }

/-- GetDelayTimer, FX07 (R163). -/
def execGetDelayTimer (x : Reg) (s : State) : Result :=
  .next (({ s with dt := s.dt.afterGet s.config.tick s.input.now }).setReg x
    (s.dt.valueAt s.config.tick s.input.now))

/-- SetDelayTimer, FX15 (R164). -/
def execSetDelayTimer (x : Reg) (s : State) : Result :=
  .next { s with dt := Timer.setAt s.input.now (s.reg x) }

/-- SetSoundTimer, FX18 (R165). -/
def execSetSoundTimer (x : Reg) (s : State) : Result :=
  .next { s with st := Timer.setAt s.input.now (s.reg x) }

end Sys2Proof.Machine
end

