-- ==== Sys2Proof/Machine/Dispatch.lean ====
section
/-! DEFINITION. One arm for each instruction: the meaning `Execute` gives it after the fetch (40_cycle R111, R121). -/

namespace Sys2Proof.Machine

/-- The meaning of an instruction, on the state after its fetch. -/
def exec (i : Instr) (s : State) : Host.Outcome State Fault Refusal :=
  match i with
  | .clearScreen => Sys2Proof.Machine.execClearScreen s
  | .ret => Sys2Proof.Machine.execRet s
  | .jump nnn => Sys2Proof.Machine.execJump nnn s
  | .callSub nnn => Sys2Proof.Machine.execCallSub nnn s
  | .skipEq x nn => Sys2Proof.Machine.execSkipEq x nn s
  | .skipNEq x nn => Sys2Proof.Machine.execSkipNEq x nn s
  | .skipRegEq x y => Sys2Proof.Machine.execSkipRegEq x y s
  | .set x nn => Sys2Proof.Machine.execSet x nn s
  | .add x nn => Sys2Proof.Machine.execAdd x nn s
  | .loadRegReg x y => Sys2Proof.Machine.execLoadRegReg x y s
  | .or x y => Sys2Proof.Machine.execOr x y s
  | .and x y => Sys2Proof.Machine.execAnd x y s
  | .xor x y => Sys2Proof.Machine.execXor x y s
  | .addRegReg x y => Sys2Proof.Machine.execAddRegReg x y s
  | .sub x y => Sys2Proof.Machine.execSub x y s
  | .shiftRight x y => Sys2Proof.Machine.execShiftRight x y s
  | .subNeg x y => Sys2Proof.Machine.execSubNeg x y s
  | .shiftLeft x y => Sys2Proof.Machine.execShiftLeft x y s
  | .skipRegNEq x y => Sys2Proof.Machine.execSkipRegNEq x y s
  | .setIndex nnn => Sys2Proof.Machine.execSetIndex nnn s
  | .jumpWithOffset nnn => Sys2Proof.Machine.execJumpWithOffset nnn s
  | .random x nn => Sys2Proof.Machine.execRandom x nn s
  | .display x y n => Sys2Proof.Machine.execDisplay x y n s
  | .skipIfPressed x => Sys2Proof.Machine.execSkipIfPressed x s
  | .skipIfNotPressed x => Sys2Proof.Machine.execSkipIfNotPressed x s
  | .getDelayTimer x => Sys2Proof.Machine.execGetDelayTimer x s
  | .waitForKey x => Sys2Proof.Machine.execWaitForKey x s
  | .setDelayTimer x => Sys2Proof.Machine.execSetDelayTimer x s
  | .setSoundTimer x => Sys2Proof.Machine.execSetSoundTimer x s
  | .addToIndex x => Sys2Proof.Machine.execAddToIndex x s
  | .setIndexToFontLocation x => Sys2Proof.Machine.execSetIndexToFontLocation x s
  | .bcdConversion x => Sys2Proof.Machine.execBcdConversion x s
  | .store x => Sys2Proof.Machine.execStore x s
  | .load x => Sys2Proof.Machine.execLoad x s

end Sys2Proof.Machine
end

