-- ==== Sys2Proof/Machine/Step.lean ====
section
/-! DEFINITION. The step function: the cycle of `Machine/Cycle.lean` over the meanings of `Machine/Dispatch.lean`. -/

namespace Sys2Proof.Machine

/-- One step request (R51, R110). -/
def step : State → Host.Outcome State Fault Refusal := stepWith exec

/-- `s` with the instruction of bits `w` placed where `step` fetches next, and the engine running it next (log 9). -/
def State.withFetchWord (s : State) (nbits w : Nat) : State := s.placeWord (tableWord nbits w)

end Sys2Proof.Machine
end

