-- ==== Sys2Proof/Machine/Loader.lean ====
section
/-! DEFINITION. The ROM load interface (20_memory R73 to R76, 10_state R55) and reset of a running machine (70_reset_and_hazards R189). Both
come from outside the engine and are no step of it. -/

namespace Sys2Proof.Machine

/-- Why a ROM load changes nothing. -/
inductive LoadError where
  /-- `InvalidRomSize(len)` (R74): reported to the caller, the engine stays in IDLE (R75, R176). -/
  | invalidRomSize (len : Nat)
  /-- A load request in another mode than IDLE (R76). -/
  | refused
deriving DecidableEq, Repr

/-- The accepted load (R73, R55): the bytes at 0x200 up, `pc`, and the mode; nothing else. -/
def State.afterLoad (s : State) (rom : List Byte) : State :=
  { s.writeBytes progBase rom with pc := 0x200, mode := .run }

/-- `load_rom(bytes)` (R73 to R76). An error leaves the state as it was: there is no new one (log 17). -/
def State.loadRom (s : State) (rom : List Byte) : Except LoadError State :=
  match s.mode with
  | .idle => if romFits rom then .ok (s.afterLoad rom) else .error (.invalidRomSize rom.length)
  | .run => .error .refused
  | .waitKey => .error .refused
  | .faulted => .error .refused

/-- Reset of a running machine (R189): every piece of the engine's state as R54 says at the current `Now()`. The parameters are the same
hardware's, and the environment's draws go on (log 13). -/
def State.restart (s : State) : State :=
  { State.resetWith s.config s.input.now with schedule := s.schedule, drawIndex := s.drawIndex }

end Sys2Proof.Machine
end

