-- ==== Sys2Proof/Machine/Disassemble.lean ====
section
/-! DEFINITION. The disassembler (30_encoding R106): a pure function of bytes, with the spec's own textual form (R107). No rule of the
engine reads text. -/

namespace Sys2Proof.Machine

/-- One hexadecimal digit, upper case. -/
def hexDigit (n : Nat) : Char :=
  if n % 16 < 10 then Char.ofNat ('0'.toNat + n % 16) else Char.ofNat ('A'.toNat + (n % 16 - 10))

/-- The low `k` hexadecimal digits of a number, most significant first (R107). -/
def hexText : Nat → Nat → String
  | 0, _ => ""
  | k + 1, n => hexText k (n / 16) ++ (hexDigit n).toString

/-- A register's name, `V0` .. `VF` (R107). -/
def regText (x : Reg) : String := "V" ++ hexText 1 x.toNat

/-- A line with one register. -/
def lineR (name : String) (x : Reg) : String := name ++ " " ++ regText x

/-- A line with two registers. -/
def lineRR (name : String) (x y : Reg) : String := name ++ " " ++ regText x ++ ", " ++ regText y

/-- A line with a register and a byte. -/
def lineRI (name : String) (x : Reg) (nn : Byte) : String := name ++ " " ++ regText x ++ ", " ++ hexText 2 nn.toNat

/-- A line with an address. -/
def lineA (name : String) (nnn : Addr) : String := name ++ " " ++ hexText 3 nnn.toNat

/-- The spec syntax of an instruction (R107). -/
def instrText : Instr → String
  | .clearScreen => "ClearScreen"
  | .ret => "Return"
  | .jump nnn => lineA "Jump" nnn
  | .callSub nnn => lineA "CallSub" nnn
  | .skipEq x nn => lineRI "SkipEq" x nn
  | .skipNEq x nn => lineRI "SkipNEq" x nn
  | .skipRegEq x y => lineRR "SkipRegEq" x y
  | .set x nn => lineRI "Set" x nn
  | .add x nn => lineRI "Add" x nn
  | .loadRegReg x y => lineRR "LoadRegReg" x y
  | .or x y => lineRR "Or" x y
  | .and x y => lineRR "And" x y
  | .xor x y => lineRR "Xor" x y
  | .addRegReg x y => lineRR "AddRegReg" x y
  | .sub x y => lineRR "Sub" x y
  | .shiftRight x y => lineRR "ShiftRight" x y
  | .subNeg x y => lineRR "SubNeg" x y
  | .shiftLeft x y => lineRR "ShiftLeft" x y
  | .skipRegNEq x y => lineRR "SkipRegNEq" x y
  | .setIndex nnn => lineA "SetIndex" nnn
  | .jumpWithOffset nnn => lineA "JumpWithOffset" nnn
  | .random x nn => lineRI "Random" x nn
  | .display x y n => lineRR "Display" x y ++ ", " ++ hexText 1 n.toNat
  | .skipIfPressed x => lineR "SkipIfPressed" x
  | .skipIfNotPressed x => lineR "SkipIfNotPressed" x
  | .getDelayTimer x => lineR "GetDelayTimer" x
  | .waitForKey x => lineR "WaitForKey" x
  | .setDelayTimer x => lineR "SetDelayTimer" x
  | .setSoundTimer x => lineR "SetSoundTimer" x
  | .addToIndex x => lineR "AddToIndex" x
  | .setIndexToFontLocation x => lineR "SetIndexToFontLocation" x
  | .bcdConversion x => lineR "BCDConversion" x
  | .store x => lineR "Store" x
  | .load x => lineR "Load" x

/-- The line of a decoded word; an Unknown word is data (R107's `Word wwww`; DEDUCED, log 12). -/
def decodedText : Decoded → String
  | .known i => instrText i
  | .unknown w => "Word " ++ hexText 4 w.toNat

/-- The disassembly of a byte string (R106): words big-endian from offset 0, 2, 4, ..; a trailing odd byte is a data line. -/
def disassemble (strict : Bool) : List Byte → List String
  | [] => []
  | [b] => ["Byte " ++ hexText 2 b.toNat]
  | hi :: lo :: rest => decodedText (decodeBytes strict hi lo) :: disassemble strict rest

end Sys2Proof.Machine
end

