-- ==== Sys2Proof/Machine/Output.lean ====
section
/-! DEFINITION. The outputs of the block (10_state R46, R53): functions of the state, so observing one changes nothing (log 18). The
framebuffer output (R47) is the field `fb`. -/

namespace Sys2Proof.Machine

/-- The fault status (R53): the record, exactly in mode FAULTED. -/
def State.faultStatus (s : State) : Option FaultRecord :=
  match s.mode with
  | .faulted => s.fault
  | .idle => none
  | .run => none
  | .waitKey => none

/-- The sound output at time `t` (R53, R162): the value `ST` would give on a read is above 0. -/
def State.soundActive (s : State) (t : Nat) : Bool :=
  decide (0 < (s.st.valueAt s.config.tick t).toNat)

/-- One trace entry (60_exceptions R185, R187): the disassembled instruction of the last fetch, its address, and the registers. -/
structure TraceEntry where
  addr : Word
  text : String
  v : RegFile
  index : Word
  pc : Word
deriving DecidableEq, Repr

/-- The trace output after a step (R187). The step that completes a key wait (R110) fetches nothing, and the spec does not say what its entry
shows: here the FX0A of the last fetch again, with the registers as they now are (DESIGN CHOICE, log 19). -/
def State.traceEntry (s : State) : TraceEntry :=
  { addr := s.curAddr
    text := decodedText (decode s.config.strictDecode s.curWord)
    v := s.v
    index := s.index
    pc := s.pc }

end Sys2Proof.Machine
end

