-- ==== Sys2Proof/Safety.lean ====
section
/-! DEFINITION. The terms claims are stated in: the invariant of the machine, what a run can reach, what a safe run is, and a few
words for effects. -/

namespace Sys2Proof.Machine

/-! ### The invariant -/

/-- The depth of the stack is within STACK_DEPTH (R34). -/
def StackBounded (s : State) : Prop :=
  ∀ d, s.config.stackDepth = some d → s.stack.length ≤ d

/-- What holds of the engine's state between steps. -/
structure Inv (s : State) : Prop where
  /-- Memory keeps its canonical form, inside the 4096 bytes (R57, R58). -/
  memory : s.mem.wf s.config.fontData
  /-- At most STACK_DEPTH entries (R34). -/
  stack : StackBounded s
  /-- No timer's reference lies in the future (R156). -/
  delayRef : s.dt.ref ≤ s.input.now
  soundRef : s.st.ref ≤ s.input.now
  /-- There is a fault record exactly in mode FAULTED (R42). -/
  record : s.fault.isSome = true ↔ s.mode = .faulted

/-- The font region reads as FONT_DATA (R60: "an immutable built-in font"). -/
def FontIntact (s : State) : Prop :=
  ∀ a, fontBase ≤ a → a < fontBase + fontLen → s.readByte a = Memory.initial s.config.fontData a

/-! ### Runs -/

/-- The states the machine can be in: reset with any parameters of R8 at any time, a ROM load, a step request, another reset; and
between steps the environment may fix any draws. -/
inductive Reachable : State → Prop where
  | reset (c : Config) (t : Nat) : c.wellFormed = true → Reachable (State.resetWith c t)
  | load (rom : List Byte) {s t : State} : Reachable s → s.loadRom rom = .ok t → Reachable t
  | step {s t : State} : Reachable s → step s = .next t → Reachable t
  | restart {s : State} : Reachable s → Reachable s.restart
  | schedule (ds : List Draw) {s : State} : Reachable s → Reachable { s with schedule := ds }

/-- `k` step requests from `s`: the fatal faults are states, so there is always a next one (log 6). -/
def runSteps (k : Nat) (s : State) : Result := Sys2Proof.core.run k s

/-- A state is safe when no fatal fault has occurred. -/
def State.safe (s : State) : Prop := s.mode ≠ .faulted

/-- A safe run: none of the first `k` step requests ends in FAULTED. -/
def SafeRun (k : Nat) (s : State) : Prop :=
  ∀ j, j ≤ k → ∃ t, runSteps j s = .next t ∧ t.safe

/-! ### Words for effects -/

/-- `w` is a word of the instruction `i`, whatever STRICT_DECODE is. -/
def IsWordOf (w : Word) (i : Instr) : Prop := ∀ strict, decode strict w = .known i

/-- The instruction word the next fetch reads (R69). -/
def State.nextWord (s : State) : Word := s.fetch.curWord

/-- `i` faults in `s`: it records the cause, its word, its address and the info, enters FAULTED, and nothing else changes (R174). -/
def FaultsWith (i : Instr) (s : State) (cause : FaultCause) (info : Option Nat) : Prop :=
  exec i s = .next { s with
    mode := .faulted
    fault := some { cause := cause, word := s.curWord, addr := s.curAddr, info := info } }

/-- Nothing of the engine has changed: only the environment's inputs have moved on. -/
def OnlyInputsMoved (s t : State) : Prop :=
  t = { s with input := t.input, schedule := t.schedule, drawIndex := t.drawIndex }

/-- The bytes `a` to `a + n - 1` may be written: inside memory (R65), and clear of the font region or FONT_WRITE_POLICY = WRITE (R66). -/
def Writable (s : State) (a n : Nat) : Prop :=
  a + n ≤ 4096 ∧ (s.config.fontWrite = .write ∨ a + n ≤ 0x050 ∨ 0x0A0 ≤ a)

/-- The sprite of `n` rows at `I`, placed at `(V[x] mod 64, V[y] mod 32)`, has a 1 bit on pixel `(px, py)` (R150, R151). -/
def SpriteCovers (s : State) (x y : Reg) (n : Nibble) (px py : Nat) : Bool :=
  decide ((s.reg x).toNat % 64 ≤ px) && decide (px < (s.reg x).toNat % 64 + 8) &&
  decide ((s.reg y).toNat % 32 ≤ py) && decide (py < (s.reg y).toNat % 32 + n.toNat) &&
  (s.readByte (s.indexAddr + (py - (s.reg y).toNat % 32))).getLsbD (7 - (px - (s.reg x).toNat % 64))

end Sys2Proof.Machine
end

