-- ==== Sys2Proof/Certificates/Slice0/Obligations.lean ====
section
/-! DEFINITION. The statements for the provers. Each quotes or rests on the rules of spec/ that its docstring names. `exec i s` is the
effect of `i` after its fetch, so `s.pc` is already `a + 2` (40_cycle R112); `t = { s with v := t.v }` says that everything but the
registers is as it was. Where a clause follows a choice that the spec marks as its own (its decisions D<n>, its general knowledge) or a choice of this
model (log <n>), the docstring says so. The digits of the words in `IsWordOf` are the spec's, which marks them as general knowledge (log 10). -/

open Sys2Proof Sys2Proof.Machine

/-! ### Encoding -/

/-- Words written out from the opcode map (30_encoding R93, R102; vectors V-DEC-1 to V-DEC-14). -/
def Obligations.WrittenWordsDecode : Prop :=
  decode true 0x00E0 = .known .clearScreen ∧ decode true 0x00EE = .known .ret ∧
  decode true 0x1ABC = .known (.jump 0xABC) ∧ decode true 0x3310 = .known (.skipEq 3 0x10) ∧
  decode true 0x5AB0 = .known (.skipRegEq 10 11) ∧ decode true 0x6A2F = .known (.set 10 0x2F) ∧
  decode true 0x8346 = .known (.shiftRight 3 4) ∧ decode true 0x800E = .known (.shiftLeft 0 0) ∧
  decode true 0xA2F0 = .known (.setIndex 0x2F0) ∧ decode true 0xD675 = .known (.display 6 7 5) ∧
  decode true 0xE09E = .known (.skipIfPressed 0) ∧ decode true 0xF315 = .known (.setDelayTimer 3) ∧
  decode true 0xF21E = .known (.addToIndex 2) ∧ decode true 0xF065 = .known (.load 0) ∧
  decode true 0x01E0 = .unknown 0x01E0 ∧ decode false 0x01E0 = .known .clearScreen ∧
  decode true 0x0123 = .unknown 0x0123 ∧ decode true 0x5121 = .unknown 0x5121 ∧
  decode true 0x8008 = .unknown 0x8008 ∧ decode true 0xFFFF = .unknown 0xFFFF

/-- Decoding the word of any instruction gives it back, with every operand, under either setting of STRICT_DECODE (R93, R102). -/
def Obligations.EncodeThenDecodeGivesBack : Prop :=
  ∀ (strict : Bool) (i : Instr), decode strict (encode i) = .known i

/-- The strict decoder gives an instruction for its own word and no other; that word lies in the instruction's row of the opcode table; and
an unknown value carries the word decoded (R93, R101, R104). -/
def Obligations.StrictDecodeIsTheOpcodeTable : Prop :=
  (∀ (w : Word) (i : Instr), decode true w = .known i ↔ encode i = w) ∧
  (∀ (w : Word) (i : Instr), decode true w = .known i → i.matchesRow w = true) ∧
  (∀ (strict : Bool) (w u : Word), decode strict w = .unknown u → u = w)

/-- Families 0, 5 and 9 under both settings of STRICT_DECODE (R96, R99); the setting touches no other family
(the spec's decision D7). -/
def Obligations.StrictDecodeGovernsFamilies059 : Prop :=
  ∀ (strict : Bool) (w : Word),
    (fieldF w = 0x0 → decode strict w =
      if w = 0x00E0 ∨ (strict = false ∧ fieldNN w = 0xE0) then .known .clearScreen
      else if w = 0x00EE ∨ (strict = false ∧ fieldNN w = 0xEE) then .known .ret else .unknown w) ∧
    (fieldF w = 0x5 → decode strict w =
      if fieldN w = 0 ∨ strict = false then .known (.skipRegEq (fieldX w) (fieldY w)) else .unknown w) ∧
    (fieldF w = 0x9 → decode strict w =
      if fieldN w = 0 ∨ strict = false then .known (.skipRegNEq (fieldX w) (fieldY w)) else .unknown w) ∧
    (fieldF w ≠ 0x0 → fieldF w ≠ 0x5 → fieldF w ≠ 0x9 → decode strict w = decode true w)

/-! ### The step and the fetch -/

/-- A step in mode RUN whose word decodes to `i` is `exec i` after the inputs are drawn and the word is fetched (R111); the fetch moves `pc` on by
2 and keeps the address and the word (R112). -/
def Obligations.StepRunsTheDecodedInstruction : Prop :=
  ∀ (s : State) (i : Instr), s.mode = .run → decode s.config.strictDecode s.nextWord = .known i →
    step s = exec i { s.sample with pc := s.pc + 2, curAddr := s.pc, curWord := s.nextWord }

/-- Fetch (R69): two bytes at `pc` and `pc + 1`, each address modulo 4096, big-endian; `pc` advances by 2 modulo 2^16; nothing else changes, so it
never faults. -/
def Obligations.FetchIsBigEndianModulo4096 : Prop :=
  ∀ s : State,
    s.fetch.curWord.toNat =
      256 * (s.readByte (s.pc.toNat % 4096)).toNat + (s.readByte ((s.pc.toNat + 1) % 4096)).toNat ∧
    s.fetch.pc.toNat = (s.pc.toNat + 2) % 2 ^ 16 ∧ s.fetch.curAddr = s.pc ∧
    s.fetch = { s with pc := s.fetch.pc, curAddr := s.fetch.curAddr, curWord := s.fetch.curWord }

/-- How a step leaves `pc` (R28), where `a = s.pc` is the instruction's own address; with a fault it is `a + 2` (R174).
`pc` is stored modulo 2^16 by the spec's decision D2; the fault's `pc` is its decision D21. -/
def Obligations.ProgramCounterAfterEachStep : Prop :=
  ∀ (s t : State) (i : Instr), s.mode = .run → decode s.config.strictDecode s.nextWord = .known i → step s = .next t →
    (t.mode = .faulted → t.pc.toNat = (s.pc.toNat + 2) % 2 ^ 16) ∧
    (t.mode ≠ .faulted → t.pc.toNat =
      match i with
      | .jump nnn => nnn.toNat
      | .callSub nnn => nnn.toNat
      | .jumpWithOffset nnn => nnn.toNat + (s.reg 0).toNat
      | .ret => (s.stack.getLastD 0).toNat
      | .skipEq x nn => (s.pc.toNat + if s.reg x = nn then 4 else 2) % 2 ^ 16
      | .skipNEq x nn => (s.pc.toNat + if s.reg x ≠ nn then 4 else 2) % 2 ^ 16
      | .skipRegEq x y => (s.pc.toNat + if s.reg x = s.reg y then 4 else 2) % 2 ^ 16
      | .skipRegNEq x y => (s.pc.toNat + if s.reg x ≠ s.reg y then 4 else 2) % 2 ^ 16
      | .skipIfPressed x => (s.pc.toNat + if s.sample.keyHeld (s.reg x) = true then 4 else 2) % 2 ^ 16
      | .skipIfNotPressed x => (s.pc.toNat + if s.sample.keyHeld (s.reg x) = true then 2 else 4) % 2 ^ 16
      | _ => (s.pc.toNat + 2) % 2 ^ 16)

/-! ### Registers and ALU -/

/-- Set, 6XNN (R130). -/
def Obligations.SetWritesTheImmediate : Prop :=
  ∀ (x : Reg) (nn : Byte) (s : State), IsWordOf (0x6#4 ++ x ++ nn) (.set x nn) ∧
    ∃ t, exec (.set x nn) s = .next t ∧ t.reg x = nn ∧ (∀ r, r ≠ x → t.reg r = s.reg r) ∧ t = { s with v := t.v }

/-- Add, 7XNN (R131): modulo 256, no flag, so VF keeps its value unless `x = 15`. -/
def Obligations.AddWrapsAndSetsNoFlag : Prop :=
  ∀ (x : Reg) (nn : Byte) (s : State), IsWordOf (0x7#4 ++ x ++ nn) (.add x nn) ∧
    ∃ t, exec (.add x nn) s = .next t ∧ (t.reg x).toNat = ((s.reg x).toNat + nn.toNat) % 256 ∧
      (∀ r, r ≠ x → t.reg r = s.reg r) ∧ t = { s with v := t.v }

/-- LoadRegReg, Or, And, Xor, 8XY0 to 8XY3 (R132 to R135): copy or bitwise, VF not written unless it is the destination. -/
def Obligations.CopyAndBitwiseSetNoFlag : Prop :=
  ∀ (x y : Reg) (s : State),
    (IsWordOf (0x8#4 ++ x ++ y ++ 0x0#4) (.loadRegReg x y) ∧ IsWordOf (0x8#4 ++ x ++ y ++ 0x1#4) (.or x y) ∧
      IsWordOf (0x8#4 ++ x ++ y ++ 0x2#4) (.and x y) ∧ IsWordOf (0x8#4 ++ x ++ y ++ 0x3#4) (.xor x y)) ∧
    (∃ t, exec (.loadRegReg x y) s = .next t ∧ t.reg x = s.reg y ∧
      (∀ r, r ≠ x → t.reg r = s.reg r) ∧ t = { s with v := t.v }) ∧
    (∃ t, exec (.or x y) s = .next t ∧
      (∀ b, (t.reg x).getLsbD b = ((s.reg x).getLsbD b || (s.reg y).getLsbD b)) ∧
      (∀ r, r ≠ x → t.reg r = s.reg r) ∧ t = { s with v := t.v }) ∧
    (∃ t, exec (.and x y) s = .next t ∧
      (∀ b, (t.reg x).getLsbD b = ((s.reg x).getLsbD b && (s.reg y).getLsbD b)) ∧
      (∀ r, r ≠ x → t.reg r = s.reg r) ∧ t = { s with v := t.v }) ∧
    (∃ t, exec (.xor x y) s = .next t ∧
      (∀ b, (t.reg x).getLsbD b = ((s.reg x).getLsbD b ^^ (s.reg y).getLsbD b)) ∧
      (∀ r, r ≠ x → t.reg r = s.reg r) ∧ t = { s with v := t.v })

/-- AddRegReg, 8XY4 (R136): the sum modulo 256, then VF = the carry; with `x = 15` the carry is what remains. -/
def Obligations.AddRegRegSumsThenCarries : Prop :=
  ∀ (x y : Reg) (s : State), IsWordOf (0x8#4 ++ x ++ y ++ 0x4#4) (.addRegReg x y) ∧
    ∃ t, exec (.addRegReg x y) s = .next t ∧
      (t.reg 15).toNat = (if 255 < (s.reg x).toNat + (s.reg y).toNat then 1 else 0) ∧
      (x ≠ 15 → (t.reg x).toNat = ((s.reg x).toNat + (s.reg y).toNat) % 256) ∧
      (∀ r, r ≠ x → r ≠ 15 → t.reg r = s.reg r) ∧ t = { s with v := t.v }

/-- Sub 8XY5 and SubNeg 8XY7 (R137, R139): the difference modulo 256, then VF = 1 iff no borrow. -/
def Obligations.SubAndSubNegReportNoBorrow : Prop :=
  ∀ (x y : Reg) (s : State),
    (IsWordOf (0x8#4 ++ x ++ y ++ 0x5#4) (.sub x y) ∧ IsWordOf (0x8#4 ++ x ++ y ++ 0x7#4) (.subNeg x y)) ∧
    (∃ t, exec (.sub x y) s = .next t ∧
      (t.reg 15).toNat = (if (s.reg x).toNat ≥ (s.reg y).toNat then 1 else 0) ∧
      (x ≠ 15 → (t.reg x).toNat = ((s.reg x).toNat + 256 - (s.reg y).toNat) % 256) ∧
      (∀ r, r ≠ x → r ≠ 15 → t.reg r = s.reg r) ∧ t = { s with v := t.v }) ∧
    (∃ t, exec (.subNeg x y) s = .next t ∧
      (t.reg 15).toNat = (if (s.reg y).toNat ≥ (s.reg x).toNat then 1 else 0) ∧
      (x ≠ 15 → (t.reg x).toNat = ((s.reg y).toNat + 256 - (s.reg x).toNat) % 256) ∧
      (∀ r, r ≠ x → r ≠ 15 → t.reg r = s.reg r) ∧ t = { s with v := t.v })

/-- ShiftRight, 8XY6 (R138): `V[x]` halved, then the bit shifted out in `V[y]` or VF by SHIFT_FLAG_DEST; the bit is written last. -/
def Obligations.ShiftRightSendsTheLowBit : Prop :=
  ∀ (x y : Reg) (s : State), IsWordOf (0x8#4 ++ x ++ y ++ 0x6#4) (.shiftRight x y) ∧
    ∀ f : Reg, f = (match s.config.shiftFlagDest with | .vy => y | .vf => 15) →
      ∃ t, exec (.shiftRight x y) s = .next t ∧ (t.reg f).toNat = (s.reg x).toNat % 2 ∧
        (x ≠ f → (t.reg x).toNat = (s.reg x).toNat / 2) ∧
        (∀ r, r ≠ x → r ≠ f → t.reg r = s.reg r) ∧ t = { s with v := t.v }

/-- ShiftLeft, 8XYE (R140): `V[x]` doubled modulo 256, then the bit shifted out in `V[y]` or VF by SHIFT_FLAG_DEST. -/
def Obligations.ShiftLeftSendsTheHighBit : Prop :=
  ∀ (x y : Reg) (s : State), IsWordOf (0x8#4 ++ x ++ y ++ 0xE#4) (.shiftLeft x y) ∧
    ∀ f : Reg, f = (match s.config.shiftFlagDest with | .vy => y | .vf => 15) →
      ∃ t, exec (.shiftLeft x y) s = .next t ∧ (t.reg f).toNat = (s.reg x).toNat / 128 ∧
        (x ≠ f → (t.reg x).toNat = 2 * (s.reg x).toNat % 256) ∧
        (∀ r, r ≠ x → r ≠ f → t.reg r = s.reg r) ∧ t = { s with v := t.v }

/-- Random, CXNN (R141): the step's random byte, whatever it is, masked with `nn`. -/
def Obligations.RandomMasksTheDraw : Prop :=
  ∀ (x : Reg) (nn : Byte) (s : State), IsWordOf (0xC#4 ++ x ++ nn) (.random x nn) ∧
    ∃ t, exec (.random x nn) s = .next t ∧
      (∀ b, (t.reg x).getLsbD b = (s.input.randByte.getLsbD b && nn.getLsbD b)) ∧
      (∀ r, r ≠ x → t.reg r = s.reg r) ∧ t = { s with v := t.v }

/-- Sub against AddRegReg of the complement (R142): the same result, and the same VF for a non-zero subtrahend; for 0, Sub gives VF = 1 and
AddRegReg gives VF = 0. Each register is its own (`x`, `y` and 15 are three), so that the flag hides no result. The spec derives
this law itself. -/
def Obligations.SubIsAddOfTheComplement : Prop :=
  ∀ (x y : Reg) (s t u : State), x ≠ y → x ≠ 15 → y ≠ 15 → exec (.sub x y) s = .next t →
    exec (.addRegReg x y) (s.setReg y (BitVec.ofNat 8 ((256 - (s.reg y).toNat) % 256))) = .next u →
      t.reg x = u.reg x ∧ (s.reg y ≠ 0 → t.reg 15 = u.reg 15) ∧ (s.reg y = 0 → t.reg 15 = 1 ∧ u.reg 15 = 0)

/-- Which registers each instruction may write (R24, R38); every other register keeps its value, VF among them. -/
def Obligations.RegistersWrittenAreTheNamedOnes : Prop :=
  ∀ (i : Instr) (s t : State) (r : Reg), exec i s = .next t →
    (match i with
      | .set x _ => r ≠ x
      | .add x _ => r ≠ x
      | .random x _ => r ≠ x
      | .loadRegReg x _ => r ≠ x
      | .or x _ => r ≠ x
      | .and x _ => r ≠ x
      | .xor x _ => r ≠ x
      | .getDelayTimer x => r ≠ x
      | .addRegReg x _ => r ≠ x ∧ r ≠ 15
      | .sub x _ => r ≠ x ∧ r ≠ 15
      | .subNeg x _ => r ≠ x ∧ r ≠ 15
      | .shiftRight x y => r ≠ x ∧ (match s.config.shiftFlagDest with | .vy => r ≠ y | .vf => r ≠ 15)
      | .shiftLeft x y => r ≠ x ∧ (match s.config.shiftFlagDest with | .vy => r ≠ y | .vf => r ≠ 15)
      | .addToIndex x => (match s.config.indexFlagDest with | .vx => r ≠ x | .vf => r ≠ 15)
      | .load x => x.toNat < r.toNat
      | .display _ _ _ => r ≠ 15
      | _ => True) →
    t.reg r = s.reg r

/-! ### Control transfer -/

/-- Jump, 1NNN (R123). -/
def Obligations.JumpSetsThePc : Prop :=
  ∀ (nnn : Addr) (s : State), IsWordOf (0x1#4 ++ nnn) (.jump nnn) ∧
    ∃ t, exec (.jump nnn) s = .next t ∧ t.pc.toNat = nnn.toNat ∧ t = { s with pc := t.pc }

/-- JumpWithOffset, BNNN (R129): the offset is always `V[0]`. That the sum is not reduced to 12 bits is the spec's decision D34. -/
def Obligations.JumpWithOffsetAddsV0 : Prop :=
  ∀ (nnn : Addr) (s : State), IsWordOf (0xB#4 ++ nnn) (.jumpWithOffset nnn) ∧
    ∃ t, exec (.jumpWithOffset nnn) s = .next t ∧ t.pc.toNat = nnn.toNat + (s.reg 0).toNat ∧ t = { s with pc := t.pc }

/-- CallSub, 2NNN (R124): it pushes `pc`, that is `a + 2`, and jumps; on a full stack it faults, which is the spec's decision D6
(what a fault records and keeps is its decision D21). -/
def Obligations.CallSubPushesOrOverflows : Prop :=
  ∀ (nnn : Addr) (s : State), IsWordOf (0x2#4 ++ nnn) (.callSub nnn) ∧
    (s.config.stackDepth ≠ some s.stack.length →
      ∃ t, exec (.callSub nnn) s = .next t ∧ t.pc.toNat = nnn.toNat ∧ t.stack = s.stack ++ [s.pc] ∧
        t = { s with pc := t.pc, stack := t.stack }) ∧
    (s.config.stackDepth = some s.stack.length → FaultsWith (.callSub nnn) s .stackOverflow none)

/-- Return, 00EE (R122): it pops into `pc`; on an empty stack it faults (what a fault records and keeps is the spec's decision D21). -/
def Obligations.ReturnPopsOrUnderflows : Prop :=
  IsWordOf 0x00EE .ret ∧
  (∀ (s : State) (rest : List Word) (r : Word), s.stack = rest ++ [r] →
    exec .ret s = .next { s with stack := rest, pc := r }) ∧
  (∀ s : State, s.stack = [] → FaultsWith .ret s .stackUnderflow none)

/-- A Return that finds the stack as a CallSub left it comes back to the instruction after the call, with the caller's stack (R122, R124). -/
def Obligations.ReturnUndoesCallSub : Prop :=
  ∀ (nnn : Addr) (s t u : State), s.config.stackDepth ≠ some s.stack.length → exec (.callSub nnn) s = .next t →
    u.stack = t.stack → exec .ret u = .next { u with stack := s.stack, pc := s.pc }

/-- The four compare skips (R125 to R128): 2 more on `pc` when the condition holds, and nothing else. -/
def Obligations.CompareSkipsMoveThePc : Prop :=
  (∀ (x : Reg) (nn : Byte) (s : State),
    (IsWordOf (0x3#4 ++ x ++ nn) (.skipEq x nn) ∧ IsWordOf (0x4#4 ++ x ++ nn) (.skipNEq x nn)) ∧
    (∃ t, exec (.skipEq x nn) s = .next t ∧ t = { s with pc := t.pc } ∧
      t.pc.toNat = (if s.reg x = nn then (s.pc.toNat + 2) % 2 ^ 16 else s.pc.toNat)) ∧
    (∃ t, exec (.skipNEq x nn) s = .next t ∧ t = { s with pc := t.pc } ∧
      t.pc.toNat = (if s.reg x = nn then s.pc.toNat else (s.pc.toNat + 2) % 2 ^ 16))) ∧
  (∀ (x y : Reg) (s : State),
    (IsWordOf (0x5#4 ++ x ++ y ++ 0x0#4) (.skipRegEq x y) ∧ IsWordOf (0x9#4 ++ x ++ y ++ 0x0#4) (.skipRegNEq x y)) ∧
    (∃ t, exec (.skipRegEq x y) s = .next t ∧ t = { s with pc := t.pc } ∧
      t.pc.toNat = (if s.reg x = s.reg y then (s.pc.toNat + 2) % 2 ^ 16 else s.pc.toNat)) ∧
    (∃ t, exec (.skipRegNEq x y) s = .next t ∧ t = { s with pc := t.pc } ∧
      t.pc.toNat = (if s.reg x = s.reg y then s.pc.toNat else (s.pc.toNat + 2) % 2 ^ 16)))

/-! ### Index register and memory -/

/-- SetIndex, ANNN (R143). -/
def Obligations.SetIndexSetsTheIndex : Prop :=
  ∀ (nnn : Addr) (s : State), IsWordOf (0xA#4 ++ nnn) (.setIndex nnn) ∧
    ∃ t, exec (.setIndex nnn) s = .next t ∧ t.index.toNat = nnn.toNat ∧ t = { s with index := t.index }

/-- SetIndexToFontLocation, FX29 (R145): five bytes a glyph from 0x050. That `V[x]` above 15 is not reduced is the spec's decision D12. -/
def Obligations.FontLocationIsFiveBytesAGlyph : Prop :=
  ∀ (x : Reg) (s : State), IsWordOf (0xF#4 ++ x ++ 0x29#8) (.setIndexToFontLocation x) ∧
    ∃ t, exec (.setIndexToFontLocation x) s = .next t ∧ t.index.toNat = 0x050 + 5 * (s.reg x).toNat ∧
      t = { s with index := t.index }

/-- AddToIndex, FX1E (R144): the sum, the flag set to 1 only on newly passing 0xFFF and else left alone, and the two policies past 16 bits
(the spec's decisions D10, D11 and D21). -/
def Obligations.AddToIndexSumsAndFlags : Prop :=
  ∀ (x : Reg) (s : State), IsWordOf (0xF#4 ++ x ++ 0x1E#8) (.addToIndex x) ∧
    (s.index.toNat + (s.reg x).toNat ≤ 0xFFFF ∨ s.config.indexOverflow = .wrap →
      ∃ t, exec (.addToIndex x) s = .next t ∧ t.index.toNat = (s.index.toNat + (s.reg x).toNat) % 2 ^ 16 ∧
        (∀ r, t.reg r =
          if s.index.toNat ≤ 0xFFF ∧ 0xFFF < t.index.toNat ∧ r = (match s.config.indexFlagDest with | .vx => x | .vf => 15)
          then 1 else s.reg r) ∧
        t = { s with index := t.index, v := t.v }) ∧
    (0xFFFF < s.index.toNat + (s.reg x).toNat → s.config.indexOverflow = .fault →
      FaultsWith (.addToIndex x) s .indexOverflow (some (s.index.toNat + (s.reg x).toNat)))

/-- BCDConversion, FX33 (R146): the three digits at `I`, `I + 1`, `I + 2`, every other byte and `I` as before; and its faults, checked before any
write, each with the lowest offending address. The digit order, the unchanged `I` and the faults are the spec's decisions D15, D16, D3, D4 and D21. -/
def Obligations.BcdWritesThreeDigits : Prop :=
  ∀ (x : Reg) (s : State), IsWordOf (0xF#4 ++ x ++ 0x33#8) (.bcdConversion x) ∧
    (s.mem.wf s.config.fontData → Writable s s.indexAddr 3 →
      ∃ t, exec (.bcdConversion x) s = .next t ∧
        (t.readByte s.indexAddr).toNat = (s.reg x).toNat / 100 ∧
        (t.readByte (s.indexAddr + 1)).toNat = (s.reg x).toNat / 10 % 10 ∧
        (t.readByte (s.indexAddr + 2)).toNat = (s.reg x).toNat % 10 ∧
        (∀ a, a < s.indexAddr ∨ s.indexAddr + 2 < a → t.readByte a = s.readByte a) ∧ t = { s with mem := t.mem }) ∧
    (4096 ≤ s.indexAddr + 2 → FaultsWith (.bcdConversion x) s .addressRange (some (max s.indexAddr 4096))) ∧
    (s.indexAddr + 2 < 4096 → s.config.fontWrite = .fault → 0x050 ≤ s.indexAddr + 2 → s.indexAddr ≤ 0x09F →
      FaultsWith (.bcdConversion x) s .fontWrite (some (max s.indexAddr 0x050)))

/-- Store, FX55 (R147): `V[0]` to `V[x]` at `I` up, every other byte and `I` as before; and its faults
(the spec's decisions D16, D3, D4 and D21). -/
def Obligations.StoreWritesTheRegisters : Prop :=
  ∀ (x : Reg) (s : State), IsWordOf (0xF#4 ++ x ++ 0x55#8) (.store x) ∧
    (s.mem.wf s.config.fontData → Writable s s.indexAddr (x.toNat + 1) →
      ∃ t, exec (.store x) s = .next t ∧
        (∀ r : Reg, r.toNat ≤ x.toNat → t.readByte (s.indexAddr + r.toNat) = s.reg r) ∧
        (∀ a, a < s.indexAddr ∨ s.indexAddr + x.toNat < a → t.readByte a = s.readByte a) ∧ t = { s with mem := t.mem }) ∧
    (4096 ≤ s.indexAddr + x.toNat → FaultsWith (.store x) s .addressRange (some (max s.indexAddr 4096))) ∧
    (s.indexAddr + x.toNat < 4096 → s.config.fontWrite = .fault → 0x050 ≤ s.indexAddr + x.toNat → s.indexAddr ≤ 0x09F →
      FaultsWith (.store x) s .fontWrite (some (max s.indexAddr 0x050)))

/-- Load, FX65 (R148): `M[I]` up into `V[0]` to `V[x]`, the other registers and `I` as before; and its fault
(the spec's decisions D16, D3 and D21). -/
def Obligations.LoadReadsTheRegisters : Prop :=
  ∀ (x : Reg) (s : State), IsWordOf (0xF#4 ++ x ++ 0x65#8) (.load x) ∧
    (s.indexAddr + x.toNat < 4096 →
      ∃ t, exec (.load x) s = .next t ∧
        (∀ r : Reg, r.toNat ≤ x.toNat → t.reg r = s.readByte (s.indexAddr + r.toNat)) ∧
        (∀ r : Reg, x.toNat < r.toNat → t.reg r = s.reg r) ∧ t = { s with v := t.v }) ∧
    (4096 ≤ s.indexAddr + x.toNat → FaultsWith (.load x) s .addressRange (some (max s.indexAddr 4096)))

/-- Store then Load with the same `I` and `x`, the memory left alone in between, restores the registers `0` to `x` (R148), whatever the
registers hold in between. -/
def Obligations.StoreThenLoadRestores : Prop :=
  ∀ (x : Reg) (s t u w : State), s.mem.wf s.config.fontData → Writable s s.indexAddr (x.toNat + 1) →
    exec (.store x) s = .next t → u.config = t.config → u.mem = t.mem → u.index = t.index → exec (.load x) u = .next w →
      ∀ r : Reg, r.toNat ≤ x.toNat → w.reg r = s.reg r

/-- Only Store and BCDConversion write memory (R63, R67). -/
def Obligations.OnlyStoreAndBcdWriteMemory : Prop :=
  ∀ (i : Instr) (s t : State), exec i s = .next t → (∀ x, i ≠ .store x) → (∀ x, i ≠ .bcdConversion x) →
    ∀ a, t.readByte a = s.readByte a

/-- The instructions that R67 does not list touch no memory: another memory changes nothing but itself. -/
def Obligations.OtherInstructionsIgnoreMemory : Prop :=
  ∀ (i : Instr) (s : State) (m : Memory),
    (match i with
      | .display _ _ _ => False
      | .bcdConversion _ => False
      | .store _ => False
      | .load _ => False
      | _ => True) →
    ∃ t, exec i s = .next t ∧ exec i { s with mem := m } = .next { t with mem := m }

/-- A store is seen by the next fetch of the stored address (R81, which the spec derives itself). -/
def Obligations.NextFetchSeesTheStore : Prop :=
  ∀ (x : Reg) (s t : State), s.mem.wf s.config.fontData → Writable s s.indexAddr (x.toNat + 1) → 1 ≤ x.toNat →
    s.pc.toNat % 4096 = s.indexAddr → exec (.store x) s = .next t →
      t.nextWord.toNat = 256 * (s.reg 0).toNat + (s.reg 1).toNat

/-- With FONT_WRITE_POLICY = FAULT (the spec's decision D4) no step changes the font region (R60, R66): the invariant of an immutable built-in
font. -/
def Obligations.FontStaysImmutable : Prop :=
  ∀ s t : State, s.config.fontWrite = .fault → s.mem.wf s.config.fontData → FontIntact s → step s = .next t → FontIntact t

/-! ### Framebuffer -/

/-- ClearScreen, 00E0 (R149). -/
def Obligations.ClearScreenClears : Prop :=
  IsWordOf 0x00E0 .clearScreen ∧
  ∀ s : State, ∃ t, exec .clearScreen s = .next t ∧ (∀ px py, t.fb.pixel px py = false) ∧ t = { s with fb := t.fb }

/-- Display, DXYN (R150 to R153): each on-screen pixel under a 1 bit of the sprite is inverted and no other; VF says whether one of them was
set; out of the memory it faults before anything is drawn. The bit order, `n = 0` and the fault are the spec's decisions D14, D3 and D21. -/
def Obligations.DisplayInvertsUnderTheSprite : Prop :=
  ∀ (x y : Reg) (n : Nibble) (s : State), IsWordOf (0xD#4 ++ x ++ y ++ n) (.display x y n) ∧
    (n = 0 ∨ s.indexAddr + n.toNat ≤ 4096 →
      ∃ t, exec (.display x y n) s = .next t ∧
        (∀ (px : Fin 64) (py : Fin 32), t.fb.pixel px py =
          if SpriteCovers s x y n px.val py.val = true then !s.fb.pixel px py else s.fb.pixel px py) ∧
        (t.reg 15 = 0 ∨ t.reg 15 = 1) ∧
        (t.reg 15 = 1 ↔ ∃ (px : Fin 64) (py : Fin 32), SpriteCovers s x y n px.val py.val = true ∧ s.fb.pixel px py = true) ∧
        (∀ r, r ≠ 15 → t.reg r = s.reg r) ∧ t = { s with fb := t.fb, v := t.v }) ∧
    (n ≠ 0 → 4096 ≤ s.indexAddr + n.toNat - 1 → FaultsWith (.display x y n) s .addressRange (some (max s.indexAddr 4096)))

/-- Drawing the same sprite twice at the same place restores the framebuffer, and the second draw sets VF = 1 exactly when a covered on-screen
pixel was clear before the first (R154). The spec derives this law itself. -/
def Obligations.DrawingTwiceRestores : Prop :=
  ∀ (x y : Reg) (n : Nibble) (s t u w : State), n = 0 ∨ s.indexAddr + n.toNat ≤ 4096 →
    exec (.display x y n) s = .next t → u.fb = t.fb → u.index = s.index → (∀ a, u.readByte a = s.readByte a) →
    (u.reg x).toNat % 64 = (s.reg x).toNat % 64 → (u.reg y).toNat % 32 = (s.reg y).toNat % 32 →
    exec (.display x y n) u = .next w →
      w.fb = s.fb ∧ (w.reg 15 = 0 ∨ w.reg 15 = 1) ∧
      (w.reg 15 = 1 ↔ ∃ (px : Fin 64) (py : Fin 32), SpriteCovers s x y n px.val py.val = true ∧ s.fb.pixel px py = false)

/-! ### Timers -/

/-- GetDelayTimer, FX07 (R158, R163): the value less the whole ticks since the reference, at least 0; the reference moves by those ticks. -/
def Obligations.GetDelayTimerReads : Prop :=
  ∀ (x : Reg) (s : State), IsWordOf (0xF#4 ++ x ++ 0x07#8) (.getDelayTimer x) ∧
    ∃ t, exec (.getDelayTimer x) s = .next t ∧
      (t.reg x).toNat = s.dt.val.toNat - (s.input.now - s.dt.ref) / s.config.tick ∧
      t.dt.val = t.reg x ∧ t.dt.ref = s.dt.ref + (s.input.now - s.dt.ref) / s.config.tick * s.config.tick ∧
      (∀ r, r ≠ x → t.reg r = s.reg r) ∧ t = { s with v := t.v, dt := t.dt }

/-- SetDelayTimer FX15 and SetSoundTimer FX18 (R157, R164, R165). -/
def Obligations.SetTimersStoreValueAndTime : Prop :=
  ∀ (x : Reg) (s : State),
    (IsWordOf (0xF#4 ++ x ++ 0x15#8) (.setDelayTimer x) ∧ IsWordOf (0xF#4 ++ x ++ 0x18#8) (.setSoundTimer x)) ∧
    exec (.setDelayTimer x) s = .next { s with dt := { val := s.reg x, ref := s.input.now } } ∧
    exec (.setSoundTimer x) s = .next { s with st := { val := s.reg x, ref := s.input.now } }

/-- The closed form (R160): after `TimerSet(T, v)` at `t0`, a read at `t` gives `max(0, v - ((t - t0) div TICK))`, whatever reads happened in
between. The spec derives this form itself. -/
def Obligations.TimerReadIsTheClosedForm : Prop :=
  ∀ (tick t0 t : Nat) (v : Byte) (reads : List Nat), 0 < tick → (t0 :: (reads ++ [t])).Pairwise (· ≤ ·) →
    ((reads.foldl (fun T r => T.afterGet tick r) (Timer.setAt t0 v)).valueAt tick t).toNat = v.toNat - (t - t0) / tick

/-- The delay timer counts down by time alone (R160, R161): a step that does not set it keeps, for every later time, the value `v` set at `t0`
would have, and a GetDelayTimer step reads it. -/
def Obligations.DelayTimerCountsAcrossSteps : Prop :=
  ∀ (s t : State) (v : Byte) (t0 : Nat), 0 < s.config.tick → s.dt.ref ≤ s.input.now →
    (∀ u, s.input.now ≤ u → (s.dt.valueAt s.config.tick u).toNat = v.toNat - (u - t0) / s.config.tick) →
    step s = .next t →
    (∀ x, s.mode = .run → decode s.config.strictDecode s.nextWord ≠ .known (.setDelayTimer x)) →
      (∀ u, t.input.now ≤ u → (t.dt.valueAt s.config.tick u).toNat = v.toNat - (u - t0) / s.config.tick) ∧
      (∀ x, s.mode = .run → decode s.config.strictDecode s.nextWord = .known (.getDelayTimer x) →
        (t.reg x).toNat = v.toNat - (t.input.now - t0) / s.config.tick)

/-- The sound output (R162): active while the value last set, less the whole ticks since, is above 0; only SetSoundTimer steps change it, and it
is off from reset (the spec's decision D19). -/
def Obligations.SoundOutputFollowsTheLastSet : Prop :=
  (∀ (x : Reg) (s t : State) (u : Nat), exec (.setSoundTimer x) s = .next t →
    (t.soundActive u = true ↔ 0 < (s.reg x).toNat - (u - s.input.now) / s.config.tick)) ∧
  (∀ s t : State, step s = .next t →
    (∀ x, s.mode = .run → decode s.config.strictDecode s.nextWord ≠ .known (.setSoundTimer x)) →
      ∀ u, t.soundActive u = s.soundActive u) ∧
  (∀ (c : Config) (t0 u : Nat), (State.resetWith c t0).soundActive u = false)

/-! ### Keypad -/

/-- SkipIfPressed EX9E and SkipIfNotPressed EXA1 (R167 to R169). A key index above 15 is the spec's decision D13 (the fault record D21). -/
def Obligations.KeySkipsReadTheHeldSet : Prop :=
  ∀ (x : Reg) (s : State),
    (IsWordOf (0xE#4 ++ x ++ 0x9E#8) (.skipIfPressed x) ∧ IsWordOf (0xE#4 ++ x ++ 0xA1#8) (.skipIfNotPressed x)) ∧
    (∀ h : (s.reg x).toNat < 16,
      exec (.skipIfPressed x) s =
        .next { s with pc := if s.input.keysHeld[(s.reg x).toNat] = true then s.pc + 2 else s.pc } ∧
      exec (.skipIfNotPressed x) s =
        .next { s with pc := if s.input.keysHeld[(s.reg x).toNat] = true then s.pc else s.pc + 2 }) ∧
    (15 < (s.reg x).toNat → s.config.keyRange = .fault →
      FaultsWith (.skipIfPressed x) s .keyRange (some (s.reg x).toNat) ∧
      FaultsWith (.skipIfNotPressed x) s .keyRange (some (s.reg x).toNat)) ∧
    (15 < (s.reg x).toNat → s.config.keyRange = .notPressed →
      exec (.skipIfPressed x) s = .next s ∧ exec (.skipIfNotPressed x) s = .next { s with pc := s.pc + 2 })

/-- WaitForKey, FX0A (R170): it enters WAIT_KEY with its target; no register changes, and the inputs of this step do not complete it. -/
def Obligations.WaitForKeyBlocks : Prop :=
  ∀ (x : Reg) (s : State), IsWordOf (0xF#4 ++ x ++ 0x0A#8) (.waitForKey x) ∧
    ∃ t, exec (.waitForKey x) s = .next t ∧ t.mode = .waitKey ∧ t.waitX = x ∧ t = { s with mode := t.mode, waitX := t.waitX }

/-- A step request in WAIT_KEY (R114, R171): a delivered key press writes `V[wait_x]` and returns to RUN, and nothing else; without one the engine
has no step, whatever keys are held. That a request without a step answers a next state with only the inputs moved is the model's choice (log 7). -/
def Obligations.KeyPressCompletesTheWait : Prop :=
  ∀ s : State, s.mode = .waitKey →
    (∀ k, s.nextDraw.keyPress = some k →
      ∃ t, step s = .next t ∧ t.mode = .run ∧ (t.reg s.waitX).toNat = k.toNat ∧ (∀ r, r ≠ s.waitX → t.reg r = s.reg r) ∧
        t = { s.sample with mode := t.mode, v := t.v }) ∧
    (s.nextDraw.keyPress = none → ∃ t, step s = .next t ∧ OnlyInputsMoved s t)

/-! ### Faults and modes -/

/-- Executing Unknown(w) (R120, R174): UNKNOWN_OPCODE with the word and the address, and nothing else but the fetch's advance
(the spec's decision D21; that a fault is a next state is the model's, log 6). -/
def Obligations.UnknownWordFaults : Prop :=
  ∀ (s : State) (w : Word), s.mode = .run → decode s.config.strictDecode s.nextWord = .unknown w →
    w = s.nextWord ∧
    step s = .next { s.sample with
      pc := s.pc + 2, curAddr := s.pc, curWord := w, mode := .faulted
      fault := some { cause := .unknownOpcode, word := w, addr := s.pc, info := some w.toNat } }

/-- All or nothing (R116, R174): where an instruction ends in FAULTED, it has written the record and the mode, with its own word and address, and
nothing else (the spec's decision D21). -/
def Obligations.FaultPerformsNoWrite : Prop :=
  ∀ (i : Instr) (s t : State), s.mode ≠ .faulted → exec i s = .next t → t.mode = .faulted →
    ∃ cause info, t = { s with
      mode := .faulted, fault := some { cause := cause, word := s.curWord, addr := s.curAddr, info := info } }

/-- FAULTED is absorbing (R175) and IDLE has no step (R115): any number of step requests leaves the engine as it is, and a ROM load in FAULTED is
refused (the spec's decisions D24 and D25). That such a request answers a next state with only the inputs moved is the model's choice (log 7). -/
def Obligations.FaultedAndIdleHaveNoStep : Prop :=
  (∀ (k : Nat) (s t : State), s.mode = .faulted ∨ s.mode = .idle → runSteps k s = .next t → OnlyInputsMoved s t) ∧
  (∀ (s : State) (rom : List Byte), s.mode = .faulted → s.loadRom rom = .error .refused)

/-- How a step changes the mode (R40, R114, R115, R186): WAIT_KEY is entered by WaitForKey alone and left by a key press alone; no step enters or
leaves IDLE, and none leaves FAULTED (a request without a step: log 7). -/
def Obligations.ModeChangesOnlyAsNamed : Prop :=
  ∀ s t : State, step s = .next t →
    (s.mode = .idle ↔ t.mode = .idle) ∧
    (s.mode = .faulted → t.mode = .faulted) ∧
    (s.mode = .waitKey → t.mode = if s.nextDraw.keyPress.isSome = true then .run else .waitKey) ∧
    (s.mode = .run → (t.mode = .waitKey ↔ ∃ x, decode s.config.strictDecode s.nextWord = .known (.waitForKey x)))

/-! ### Whole-machine rules -/

/-- Who writes what (R31, R33, R37, R39, R43): only SetIndex, AddToIndex and SetIndexToFontLocation write `I`; only CallSub and Return the stack; only
GetDelayTimer and SetDelayTimer `DT`; only SetSoundTimer `ST`; only ClearScreen and Display `FB`; none the parameters. -/
def Obligations.EachPieceHasItsWriters : Prop :=
  ∀ (i : Instr) (s t : State), exec i s = .next t →
    t.config = s.config ∧
    ((∀ a, i ≠ .setIndex a) → (∀ x, i ≠ .addToIndex x) → (∀ x, i ≠ .setIndexToFontLocation x) → t.index = s.index) ∧
    ((∀ a, i ≠ .callSub a) → i ≠ .ret → t.stack = s.stack) ∧
    ((∀ x, i ≠ .getDelayTimer x) → (∀ x, i ≠ .setDelayTimer x) → t.dt = s.dt) ∧
    ((∀ x, i ≠ .setSoundTimer x) → t.st = s.st) ∧
    (i ≠ .clearScreen → (∀ x y n, i ≠ .display x y n) → ∀ px py, t.fb.pixel px py = s.fb.pixel px py) ∧
    ((∀ x, i ≠ .waitForKey x) → t.waitX = s.waitX)

/-- Each instruction uses at most the one input R118 names for it: other inputs changed, the outcome is the same. -/
def Obligations.EachInstructionUsesItsOneInput : Prop :=
  ∀ (i : Instr) (s : State) (inp : Inputs),
    (match i with
      | .random _ _ => inp.randByte = s.input.randByte
      | .getDelayTimer _ => inp.now = s.input.now
      | .setDelayTimer _ => inp.now = s.input.now
      | .setSoundTimer _ => inp.now = s.input.now
      | .skipIfPressed _ => inp.keysHeld = s.input.keysHeld
      | .skipIfNotPressed _ => inp.keysHeld = s.input.keysHeld
      | _ => True) →
    ∃ t, exec i s = .next t ∧ exec i { s with input := inp } = .next { t with input := inp }

/-- Time never runs backwards (R50) and no step changes the parameters (R39). -/
def Obligations.StepKeepsParametersAndTimeOrder : Prop :=
  ∀ s t : State, step s = .next t → t.config = s.config ∧ s.input.now ≤ t.input.now ∧ t.input.now = s.input.now + s.nextDraw.elapsed

/-! ### Reset, ROM load, invariants -/

/-- The reset values (R54), for any parameters and any time of reset. `pc`, `FB`, the mode, `wait_x` and the fault record at reset are the spec's
decision D24, the timers' reference times D33, FONT_DATA a parameter (D27). -/
def Obligations.ResetValues : Prop :=
  ∀ (c : Config) (t : Nat),
    (∀ r, (State.resetWith c t).reg r = 0) ∧ (State.resetWith c t).pc = 0x200 ∧ (State.resetWith c t).index = 0 ∧
    (State.resetWith c t).stack = [] ∧ (State.resetWith c t).dt = { val := 0, ref := t } ∧
    (State.resetWith c t).st = { val := 0, ref := t } ∧ (State.resetWith c t).input.now = t ∧
    (∀ (k : Nat) (h : k < 80), (State.resetWith c t).readByte (0x050 + k) = c.fontData[k]) ∧
    (∀ a, a < 0x050 ∨ 0x09F < a → (State.resetWith c t).readByte a = 0) ∧
    (∀ px py, (State.resetWith c t).fb.pixel px py = false) ∧ (State.resetWith c t).mode = .idle ∧
    (State.resetWith c t).waitX = 0 ∧ (State.resetWith c t).fault = none

/-- An accepted ROM load (R73, R55): the bytes verbatim at 0x200 up, every other byte untouched, `pc` and mode set, nothing else; an empty ROM is
accepted by the spec's decision D32. -/
def Obligations.RomLoadCopiesVerbatim : Prop :=
  ∀ (s : State) (rom : List Byte), s.mode = .idle → rom.length ≤ 3584 → s.mem.wf s.config.fontData →
    ∃ t, s.loadRom rom = .ok t ∧ (∀ (k : Nat) (h : k < rom.length), t.readByte (0x200 + k) = rom[k]) ∧
      (∀ a, a < 0x200 ∨ 0x200 + rom.length ≤ a → t.readByte a = s.readByte a) ∧ t.pc = 0x200 ∧ t.mode = .run ∧
      t = { s with mem := t.mem, pc := t.pc, mode := t.mode }

/-- A ROM load that gives no new state (R74 to R76): too long in IDLE, `InvalidRomSize(len)`; in any other mode, refused
(the spec's decision D25). -/
def Obligations.RomLoadRefusals : Prop :=
  (∀ (s : State) (rom : List Byte), s.mode = .idle → 3584 < rom.length →
    s.loadRom rom = .error (.invalidRomSize rom.length)) ∧
  (∀ (s : State) (rom : List Byte), s.mode ≠ .idle → s.loadRom rom = .error .refused)

/-- After reset and a load, the first word fetched is the ROM's first two bytes, at 0x200 (R190, R191). -/
def Obligations.RomRunsFromItsFirstWord : Prop :=
  ∀ (c : Config) (t : Nat) (b0 b1 : Byte) (rest : List Byte) (s : State),
    (State.resetWith c t).loadRom (b0 :: b1 :: rest) = .ok s →
      s.mode = .run ∧ s.pc = 0x200 ∧ s.nextWord.toNat = 256 * b0.toNat + b1.toNat

/-- The invariant holds at reset, with any parameters and at any time. -/
def Obligations.ResetMeetsInv : Prop :=
  ∀ (c : Config) (t : Nat), Inv (State.resetWith c t)

/-- Every step keeps the invariant: canonical memory inside the 4096 bytes, a stack within STACK_DEPTH, no timer reference in the future, a fault
record exactly in FAULTED (R34, R42, R57, R156). -/
def Obligations.StepKeepsInv : Prop :=
  ∀ s t : State, Inv s → step s = .next t → Inv t

/-- Every reachable state, over resets, ROM loads, steps and any inputs, meets the invariant, has parameters in their domains, and with
FONT_WRITE_POLICY = FAULT (the spec's decision D4) still holds FONT_DATA in the font region. A reset of a running machine keeps the parameters, the time
and the coming draws: the model's choice (log 13). -/
def Obligations.ReachableStatesAreSound : Prop :=
  ∀ s : State, Reachable s →
    Inv s ∧ s.config.wellFormed = true ∧ (s.config.fontWrite = .fault → FontIntact s)

/-- The disassembly of a byte string has `len / 2` lines, one more if `len` is odd (R106). -/
def Obligations.DisassemblyLineCount : Prop :=
  ∀ (strict : Bool) (bytes : List Byte),
    (disassemble strict bytes).length = bytes.length / 2 + (if bytes.length % 2 = 1 then 1 else 0)
end

