-- ==== Sys2Proof/Laws/State.lean ====
section
/-! SUPPORT. One lemma for each field and each state update: what the field is after it. No later proof unfolds a record update. -/

namespace Sys2Proof.Machine

variable (s : State)

/-! ### `setReg` -/

@[simp] theorem State.setReg_config (x : Reg) (b : Byte) : (s.setReg x b).config = s.config := rfl
@[simp] theorem State.setReg_v (x : Reg) (b : Byte) : (s.setReg x b).v = s.v.set x.toNat b x.isLt := rfl
@[simp] theorem State.setReg_pc (x : Reg) (b : Byte) : (s.setReg x b).pc = s.pc := rfl
@[simp] theorem State.setReg_index (x : Reg) (b : Byte) : (s.setReg x b).index = s.index := rfl
@[simp] theorem State.setReg_stack (x : Reg) (b : Byte) : (s.setReg x b).stack = s.stack := rfl
@[simp] theorem State.setReg_dt (x : Reg) (b : Byte) : (s.setReg x b).dt = s.dt := rfl
@[simp] theorem State.setReg_st (x : Reg) (b : Byte) : (s.setReg x b).st = s.st := rfl
@[simp] theorem State.setReg_mem (x : Reg) (b : Byte) : (s.setReg x b).mem = s.mem := rfl
@[simp] theorem State.setReg_fb (x : Reg) (b : Byte) : (s.setReg x b).fb = s.fb := rfl
@[simp] theorem State.setReg_mode (x : Reg) (b : Byte) : (s.setReg x b).mode = s.mode := rfl
@[simp] theorem State.setReg_waitX (x : Reg) (b : Byte) : (s.setReg x b).waitX = s.waitX := rfl
@[simp] theorem State.setReg_fault (x : Reg) (b : Byte) : (s.setReg x b).fault = s.fault := rfl
@[simp] theorem State.setReg_curAddr (x : Reg) (b : Byte) : (s.setReg x b).curAddr = s.curAddr := rfl
@[simp] theorem State.setReg_curWord (x : Reg) (b : Byte) : (s.setReg x b).curWord = s.curWord := rfl
@[simp] theorem State.setReg_input (x : Reg) (b : Byte) : (s.setReg x b).input = s.input := rfl
@[simp] theorem State.setReg_schedule (x : Reg) (b : Byte) : (s.setReg x b).schedule = s.schedule := rfl
@[simp] theorem State.setReg_drawIndex (x : Reg) (b : Byte) : (s.setReg x b).drawIndex = s.drawIndex := rfl

/-! ### `setRegs` -/

@[simp] theorem State.setRegs_config (bs : List Byte) : (s.setRegs bs).config = s.config := rfl
@[simp] theorem State.setRegs_v (bs : List Byte) : (s.setRegs bs).v = RegFile.writeFrom s.v 0 bs := rfl
@[simp] theorem State.setRegs_pc (bs : List Byte) : (s.setRegs bs).pc = s.pc := rfl
@[simp] theorem State.setRegs_index (bs : List Byte) : (s.setRegs bs).index = s.index := rfl
@[simp] theorem State.setRegs_stack (bs : List Byte) : (s.setRegs bs).stack = s.stack := rfl
@[simp] theorem State.setRegs_dt (bs : List Byte) : (s.setRegs bs).dt = s.dt := rfl
@[simp] theorem State.setRegs_st (bs : List Byte) : (s.setRegs bs).st = s.st := rfl
@[simp] theorem State.setRegs_mem (bs : List Byte) : (s.setRegs bs).mem = s.mem := rfl
@[simp] theorem State.setRegs_fb (bs : List Byte) : (s.setRegs bs).fb = s.fb := rfl
@[simp] theorem State.setRegs_mode (bs : List Byte) : (s.setRegs bs).mode = s.mode := rfl
@[simp] theorem State.setRegs_waitX (bs : List Byte) : (s.setRegs bs).waitX = s.waitX := rfl
@[simp] theorem State.setRegs_fault (bs : List Byte) : (s.setRegs bs).fault = s.fault := rfl
@[simp] theorem State.setRegs_curAddr (bs : List Byte) : (s.setRegs bs).curAddr = s.curAddr := rfl
@[simp] theorem State.setRegs_curWord (bs : List Byte) : (s.setRegs bs).curWord = s.curWord := rfl
@[simp] theorem State.setRegs_input (bs : List Byte) : (s.setRegs bs).input = s.input := rfl
@[simp] theorem State.setRegs_schedule (bs : List Byte) : (s.setRegs bs).schedule = s.schedule := rfl
@[simp] theorem State.setRegs_drawIndex (bs : List Byte) : (s.setRegs bs).drawIndex = s.drawIndex := rfl

/-! ### `setRegFlag` -/

@[simp] theorem State.setRegFlag_config (x f : Reg) (b : Byte) (c : Bool) : (s.setRegFlag x b f c).config = s.config := rfl
@[simp] theorem State.setRegFlag_pc (x f : Reg) (b : Byte) (c : Bool) : (s.setRegFlag x b f c).pc = s.pc := rfl
@[simp] theorem State.setRegFlag_index (x f : Reg) (b : Byte) (c : Bool) : (s.setRegFlag x b f c).index = s.index := rfl
@[simp] theorem State.setRegFlag_stack (x f : Reg) (b : Byte) (c : Bool) : (s.setRegFlag x b f c).stack = s.stack := rfl
@[simp] theorem State.setRegFlag_dt (x f : Reg) (b : Byte) (c : Bool) : (s.setRegFlag x b f c).dt = s.dt := rfl
@[simp] theorem State.setRegFlag_st (x f : Reg) (b : Byte) (c : Bool) : (s.setRegFlag x b f c).st = s.st := rfl
@[simp] theorem State.setRegFlag_mem (x f : Reg) (b : Byte) (c : Bool) : (s.setRegFlag x b f c).mem = s.mem := rfl
@[simp] theorem State.setRegFlag_fb (x f : Reg) (b : Byte) (c : Bool) : (s.setRegFlag x b f c).fb = s.fb := rfl
@[simp] theorem State.setRegFlag_mode (x f : Reg) (b : Byte) (c : Bool) : (s.setRegFlag x b f c).mode = s.mode := rfl
@[simp] theorem State.setRegFlag_waitX (x f : Reg) (b : Byte) (c : Bool) : (s.setRegFlag x b f c).waitX = s.waitX := rfl
@[simp] theorem State.setRegFlag_fault (x f : Reg) (b : Byte) (c : Bool) : (s.setRegFlag x b f c).fault = s.fault := rfl
@[simp] theorem State.setRegFlag_curAddr (x f : Reg) (b : Byte) (c : Bool) : (s.setRegFlag x b f c).curAddr = s.curAddr := rfl
@[simp] theorem State.setRegFlag_curWord (x f : Reg) (b : Byte) (c : Bool) : (s.setRegFlag x b f c).curWord = s.curWord := rfl
@[simp] theorem State.setRegFlag_input (x f : Reg) (b : Byte) (c : Bool) : (s.setRegFlag x b f c).input = s.input := rfl
@[simp] theorem State.setRegFlag_schedule (x f : Reg) (b : Byte) (c : Bool) : (s.setRegFlag x b f c).schedule = s.schedule := rfl
@[simp] theorem State.setRegFlag_drawIndex (x f : Reg) (b : Byte) (c : Bool) : (s.setRegFlag x b f c).drawIndex = s.drawIndex := rfl

/-! ### `writeBytes` -/

@[simp] theorem State.writeBytes_config (a : Nat) (bs : List Byte) : (s.writeBytes a bs).config = s.config := rfl
@[simp] theorem State.writeBytes_v (a : Nat) (bs : List Byte) : (s.writeBytes a bs).v = s.v := rfl
@[simp] theorem State.writeBytes_pc (a : Nat) (bs : List Byte) : (s.writeBytes a bs).pc = s.pc := rfl
@[simp] theorem State.writeBytes_index (a : Nat) (bs : List Byte) : (s.writeBytes a bs).index = s.index := rfl
@[simp] theorem State.writeBytes_stack (a : Nat) (bs : List Byte) : (s.writeBytes a bs).stack = s.stack := rfl
@[simp] theorem State.writeBytes_dt (a : Nat) (bs : List Byte) : (s.writeBytes a bs).dt = s.dt := rfl
@[simp] theorem State.writeBytes_st (a : Nat) (bs : List Byte) : (s.writeBytes a bs).st = s.st := rfl
@[simp] theorem State.writeBytes_mem (a : Nat) (bs : List Byte) : (s.writeBytes a bs).mem = s.mem.writeBytes s.config.fontData a bs := rfl
@[simp] theorem State.writeBytes_fb (a : Nat) (bs : List Byte) : (s.writeBytes a bs).fb = s.fb := rfl
@[simp] theorem State.writeBytes_mode (a : Nat) (bs : List Byte) : (s.writeBytes a bs).mode = s.mode := rfl
@[simp] theorem State.writeBytes_waitX (a : Nat) (bs : List Byte) : (s.writeBytes a bs).waitX = s.waitX := rfl
@[simp] theorem State.writeBytes_fault (a : Nat) (bs : List Byte) : (s.writeBytes a bs).fault = s.fault := rfl
@[simp] theorem State.writeBytes_curAddr (a : Nat) (bs : List Byte) : (s.writeBytes a bs).curAddr = s.curAddr := rfl
@[simp] theorem State.writeBytes_curWord (a : Nat) (bs : List Byte) : (s.writeBytes a bs).curWord = s.curWord := rfl
@[simp] theorem State.writeBytes_input (a : Nat) (bs : List Byte) : (s.writeBytes a bs).input = s.input := rfl
@[simp] theorem State.writeBytes_schedule (a : Nat) (bs : List Byte) : (s.writeBytes a bs).schedule = s.schedule := rfl
@[simp] theorem State.writeBytes_drawIndex (a : Nat) (bs : List Byte) : (s.writeBytes a bs).drawIndex = s.drawIndex := rfl

/-! ### `raise` -/

@[simp] theorem State.raise_config (r : FaultReason) : (s.raise r).config = s.config := rfl
@[simp] theorem State.raise_v (r : FaultReason) : (s.raise r).v = s.v := rfl
@[simp] theorem State.raise_pc (r : FaultReason) : (s.raise r).pc = s.pc := rfl
@[simp] theorem State.raise_index (r : FaultReason) : (s.raise r).index = s.index := rfl
@[simp] theorem State.raise_stack (r : FaultReason) : (s.raise r).stack = s.stack := rfl
@[simp] theorem State.raise_dt (r : FaultReason) : (s.raise r).dt = s.dt := rfl
@[simp] theorem State.raise_st (r : FaultReason) : (s.raise r).st = s.st := rfl
@[simp] theorem State.raise_mem (r : FaultReason) : (s.raise r).mem = s.mem := rfl
@[simp] theorem State.raise_fb (r : FaultReason) : (s.raise r).fb = s.fb := rfl
@[simp] theorem State.raise_mode (r : FaultReason) : (s.raise r).mode = .faulted := rfl
@[simp] theorem State.raise_waitX (r : FaultReason) : (s.raise r).waitX = s.waitX := rfl
@[simp] theorem State.raise_fault (r : FaultReason) : (s.raise r).fault = some { cause := r.cause, word := s.curWord, addr := s.curAddr, info := r.info } := rfl
@[simp] theorem State.raise_curAddr (r : FaultReason) : (s.raise r).curAddr = s.curAddr := rfl
@[simp] theorem State.raise_curWord (r : FaultReason) : (s.raise r).curWord = s.curWord := rfl
@[simp] theorem State.raise_input (r : FaultReason) : (s.raise r).input = s.input := rfl
@[simp] theorem State.raise_schedule (r : FaultReason) : (s.raise r).schedule = s.schedule := rfl
@[simp] theorem State.raise_drawIndex (r : FaultReason) : (s.raise r).drawIndex = s.drawIndex := rfl

/-! ### `push` -/

@[simp] theorem State.push_config (r : Word) : (s.push r).config = s.config := rfl
@[simp] theorem State.push_v (r : Word) : (s.push r).v = s.v := rfl
@[simp] theorem State.push_pc (r : Word) : (s.push r).pc = s.pc := rfl
@[simp] theorem State.push_index (r : Word) : (s.push r).index = s.index := rfl
@[simp] theorem State.push_stack (r : Word) : (s.push r).stack = s.stack ++ [r] := rfl
@[simp] theorem State.push_dt (r : Word) : (s.push r).dt = s.dt := rfl
@[simp] theorem State.push_st (r : Word) : (s.push r).st = s.st := rfl
@[simp] theorem State.push_mem (r : Word) : (s.push r).mem = s.mem := rfl
@[simp] theorem State.push_fb (r : Word) : (s.push r).fb = s.fb := rfl
@[simp] theorem State.push_mode (r : Word) : (s.push r).mode = s.mode := rfl
@[simp] theorem State.push_waitX (r : Word) : (s.push r).waitX = s.waitX := rfl
@[simp] theorem State.push_fault (r : Word) : (s.push r).fault = s.fault := rfl
@[simp] theorem State.push_curAddr (r : Word) : (s.push r).curAddr = s.curAddr := rfl
@[simp] theorem State.push_curWord (r : Word) : (s.push r).curWord = s.curWord := rfl
@[simp] theorem State.push_input (r : Word) : (s.push r).input = s.input := rfl
@[simp] theorem State.push_schedule (r : Word) : (s.push r).schedule = s.schedule := rfl
@[simp] theorem State.push_drawIndex (r : Word) : (s.push r).drawIndex = s.drawIndex := rfl

/-! ### `jumpTo` -/

@[simp] theorem State.jumpTo_config (r : Word) : (s.jumpTo r).config = s.config := rfl
@[simp] theorem State.jumpTo_v (r : Word) : (s.jumpTo r).v = s.v := rfl
@[simp] theorem State.jumpTo_pc (r : Word) : (s.jumpTo r).pc = r := rfl
@[simp] theorem State.jumpTo_index (r : Word) : (s.jumpTo r).index = s.index := rfl
@[simp] theorem State.jumpTo_stack (r : Word) : (s.jumpTo r).stack = s.stack := rfl
@[simp] theorem State.jumpTo_dt (r : Word) : (s.jumpTo r).dt = s.dt := rfl
@[simp] theorem State.jumpTo_st (r : Word) : (s.jumpTo r).st = s.st := rfl
@[simp] theorem State.jumpTo_mem (r : Word) : (s.jumpTo r).mem = s.mem := rfl
@[simp] theorem State.jumpTo_fb (r : Word) : (s.jumpTo r).fb = s.fb := rfl
@[simp] theorem State.jumpTo_mode (r : Word) : (s.jumpTo r).mode = s.mode := rfl
@[simp] theorem State.jumpTo_waitX (r : Word) : (s.jumpTo r).waitX = s.waitX := rfl
@[simp] theorem State.jumpTo_fault (r : Word) : (s.jumpTo r).fault = s.fault := rfl
@[simp] theorem State.jumpTo_curAddr (r : Word) : (s.jumpTo r).curAddr = s.curAddr := rfl
@[simp] theorem State.jumpTo_curWord (r : Word) : (s.jumpTo r).curWord = s.curWord := rfl
@[simp] theorem State.jumpTo_input (r : Word) : (s.jumpTo r).input = s.input := rfl
@[simp] theorem State.jumpTo_schedule (r : Word) : (s.jumpTo r).schedule = s.schedule := rfl
@[simp] theorem State.jumpTo_drawIndex (r : Word) : (s.jumpTo r).drawIndex = s.drawIndex := rfl

/-! ### `fetch` -/

@[simp] theorem State.fetch_config : (s.fetch).config = s.config := rfl
@[simp] theorem State.fetch_v : (s.fetch).v = s.v := rfl
@[simp] theorem State.fetch_pc : (s.fetch).pc = s.pc + 2 := rfl
@[simp] theorem State.fetch_index : (s.fetch).index = s.index := rfl
@[simp] theorem State.fetch_stack : (s.fetch).stack = s.stack := rfl
@[simp] theorem State.fetch_dt : (s.fetch).dt = s.dt := rfl
@[simp] theorem State.fetch_st : (s.fetch).st = s.st := rfl
@[simp] theorem State.fetch_mem : (s.fetch).mem = s.mem := rfl
@[simp] theorem State.fetch_fb : (s.fetch).fb = s.fb := rfl
@[simp] theorem State.fetch_mode : (s.fetch).mode = s.mode := rfl
@[simp] theorem State.fetch_waitX : (s.fetch).waitX = s.waitX := rfl
@[simp] theorem State.fetch_fault : (s.fetch).fault = s.fault := rfl
@[simp] theorem State.fetch_curAddr : (s.fetch).curAddr = s.pc := rfl
@[simp] theorem State.fetch_curWord : (s.fetch).curWord = wordOfBytes (s.readByte (s.pc.toNat % memSize)) (s.readByte ((s.pc.toNat + 1) % memSize)) := rfl
@[simp] theorem State.fetch_input : (s.fetch).input = s.input := rfl
@[simp] theorem State.fetch_schedule : (s.fetch).schedule = s.schedule := rfl
@[simp] theorem State.fetch_drawIndex : (s.fetch).drawIndex = s.drawIndex := rfl

/-! ### `sample` -/

@[simp] theorem State.sample_config : (s.sample).config = s.config := rfl
@[simp] theorem State.sample_v : (s.sample).v = s.v := rfl
@[simp] theorem State.sample_pc : (s.sample).pc = s.pc := rfl
@[simp] theorem State.sample_index : (s.sample).index = s.index := rfl
@[simp] theorem State.sample_stack : (s.sample).stack = s.stack := rfl
@[simp] theorem State.sample_dt : (s.sample).dt = s.dt := rfl
@[simp] theorem State.sample_st : (s.sample).st = s.st := rfl
@[simp] theorem State.sample_mem : (s.sample).mem = s.mem := rfl
@[simp] theorem State.sample_fb : (s.sample).fb = s.fb := rfl
@[simp] theorem State.sample_mode : (s.sample).mode = s.mode := rfl
@[simp] theorem State.sample_waitX : (s.sample).waitX = s.waitX := rfl
@[simp] theorem State.sample_fault : (s.sample).fault = s.fault := rfl
@[simp] theorem State.sample_curAddr : (s.sample).curAddr = s.curAddr := rfl
@[simp] theorem State.sample_curWord : (s.sample).curWord = s.curWord := rfl
@[simp] theorem State.sample_schedule : (s.sample).schedule = s.schedule.tail := rfl
@[simp] theorem State.sample_drawIndex : (s.sample).drawIndex = s.drawIndex + 1 := rfl

/-! ### `placeWord` -/

@[simp] theorem State.placeWord_config (w : Word) : (s.placeWord w).config = s.config := rfl
@[simp] theorem State.placeWord_v (w : Word) : (s.placeWord w).v = s.v := rfl
@[simp] theorem State.placeWord_pc (w : Word) : (s.placeWord w).pc = s.pc := rfl
@[simp] theorem State.placeWord_index (w : Word) : (s.placeWord w).index = s.index := rfl
@[simp] theorem State.placeWord_stack (w : Word) : (s.placeWord w).stack = s.stack := rfl
@[simp] theorem State.placeWord_dt (w : Word) : (s.placeWord w).dt = s.dt := rfl
@[simp] theorem State.placeWord_st (w : Word) : (s.placeWord w).st = s.st := rfl
@[simp] theorem State.placeWord_fb (w : Word) : (s.placeWord w).fb = s.fb := rfl
@[simp] theorem State.placeWord_mode (w : Word) : (s.placeWord w).mode = .run := rfl
@[simp] theorem State.placeWord_waitX (w : Word) : (s.placeWord w).waitX = s.waitX := rfl
@[simp] theorem State.placeWord_fault (w : Word) : (s.placeWord w).fault = s.fault := rfl
@[simp] theorem State.placeWord_curAddr (w : Word) : (s.placeWord w).curAddr = s.curAddr := rfl
@[simp] theorem State.placeWord_curWord (w : Word) : (s.placeWord w).curWord = s.curWord := rfl
@[simp] theorem State.placeWord_input (w : Word) : (s.placeWord w).input = s.input := rfl
@[simp] theorem State.placeWord_schedule (w : Word) : (s.placeWord w).schedule = s.schedule := rfl
@[simp] theorem State.placeWord_drawIndex (w : Word) : (s.placeWord w).drawIndex = s.drawIndex := rfl

/-! ### `afterLoad` -/

@[simp] theorem State.afterLoad_config (rom : List Byte) : (s.afterLoad rom).config = s.config := rfl
@[simp] theorem State.afterLoad_v (rom : List Byte) : (s.afterLoad rom).v = s.v := rfl
@[simp] theorem State.afterLoad_pc (rom : List Byte) : (s.afterLoad rom).pc = 0x200 := rfl
@[simp] theorem State.afterLoad_index (rom : List Byte) : (s.afterLoad rom).index = s.index := rfl
@[simp] theorem State.afterLoad_stack (rom : List Byte) : (s.afterLoad rom).stack = s.stack := rfl
@[simp] theorem State.afterLoad_dt (rom : List Byte) : (s.afterLoad rom).dt = s.dt := rfl
@[simp] theorem State.afterLoad_st (rom : List Byte) : (s.afterLoad rom).st = s.st := rfl
@[simp] theorem State.afterLoad_mem (rom : List Byte) : (s.afterLoad rom).mem = s.mem.writeBytes s.config.fontData progBase rom := rfl
@[simp] theorem State.afterLoad_fb (rom : List Byte) : (s.afterLoad rom).fb = s.fb := rfl
@[simp] theorem State.afterLoad_mode (rom : List Byte) : (s.afterLoad rom).mode = .run := rfl
@[simp] theorem State.afterLoad_waitX (rom : List Byte) : (s.afterLoad rom).waitX = s.waitX := rfl
@[simp] theorem State.afterLoad_fault (rom : List Byte) : (s.afterLoad rom).fault = s.fault := rfl
@[simp] theorem State.afterLoad_curAddr (rom : List Byte) : (s.afterLoad rom).curAddr = s.curAddr := rfl
@[simp] theorem State.afterLoad_curWord (rom : List Byte) : (s.afterLoad rom).curWord = s.curWord := rfl
@[simp] theorem State.afterLoad_input (rom : List Byte) : (s.afterLoad rom).input = s.input := rfl
@[simp] theorem State.afterLoad_schedule (rom : List Byte) : (s.afterLoad rom).schedule = s.schedule := rfl
@[simp] theorem State.afterLoad_drawIndex (rom : List Byte) : (s.afterLoad rom).drawIndex = s.drawIndex := rfl

/-! ### `addIndex` -/

@[simp] theorem State.addIndex_index (x : Reg) (n : Nat) : (s.addIndex x n).index = BitVec.ofNat 16 n := by
  unfold State.addIndex; dsimp only; split <;> rfl
/-- AddToIndex writes `index` and, for its flag, `v` alone. -/
theorem State.addIndex_eq (x : Reg) (n : Nat) :
    s.addIndex x n = { s with index := BitVec.ofNat 16 n, v := (s.addIndex x n).v } := by
  unfold State.addIndex; dsimp only; split <;> rfl
@[simp] theorem State.addIndex_config (x : Reg) (n : Nat) : (s.addIndex x n).config = s.config := by rw [State.addIndex_eq]
@[simp] theorem State.addIndex_pc (x : Reg) (n : Nat) : (s.addIndex x n).pc = s.pc := by rw [State.addIndex_eq]
@[simp] theorem State.addIndex_stack (x : Reg) (n : Nat) : (s.addIndex x n).stack = s.stack := by rw [State.addIndex_eq]
@[simp] theorem State.addIndex_dt (x : Reg) (n : Nat) : (s.addIndex x n).dt = s.dt := by rw [State.addIndex_eq]
@[simp] theorem State.addIndex_st (x : Reg) (n : Nat) : (s.addIndex x n).st = s.st := by rw [State.addIndex_eq]
@[simp] theorem State.addIndex_mem (x : Reg) (n : Nat) : (s.addIndex x n).mem = s.mem := by rw [State.addIndex_eq]
@[simp] theorem State.addIndex_fb (x : Reg) (n : Nat) : (s.addIndex x n).fb = s.fb := by rw [State.addIndex_eq]
@[simp] theorem State.addIndex_mode (x : Reg) (n : Nat) : (s.addIndex x n).mode = s.mode := by rw [State.addIndex_eq]
@[simp] theorem State.addIndex_waitX (x : Reg) (n : Nat) : (s.addIndex x n).waitX = s.waitX := by rw [State.addIndex_eq]
@[simp] theorem State.addIndex_fault (x : Reg) (n : Nat) : (s.addIndex x n).fault = s.fault := by rw [State.addIndex_eq]
@[simp] theorem State.addIndex_curAddr (x : Reg) (n : Nat) : (s.addIndex x n).curAddr = s.curAddr := by rw [State.addIndex_eq]
@[simp] theorem State.addIndex_curWord (x : Reg) (n : Nat) : (s.addIndex x n).curWord = s.curWord := by rw [State.addIndex_eq]
@[simp] theorem State.addIndex_input (x : Reg) (n : Nat) : (s.addIndex x n).input = s.input := by rw [State.addIndex_eq]
@[simp] theorem State.addIndex_schedule (x : Reg) (n : Nat) : (s.addIndex x n).schedule = s.schedule := by rw [State.addIndex_eq]
@[simp] theorem State.addIndex_drawIndex (x : Reg) (n : Nat) : (s.addIndex x n).drawIndex = s.drawIndex := by rw [State.addIndex_eq]

/-! ### `raiseOr`: what neither the fault nor the effect changes -/

/-- A reading that neither a fault nor the effect changes is as before. -/
theorem State.raiseOr_congr {α : Type} {t : State} (f : State → α) (c : Option FaultReason) (h1 : ∀ r, f (s.raise r) = f s)
    (h2 : f t = f s) : f (s.raiseOr c t) = f s := by
  cases c with
  | none => exact h2
  | some r => exact h1 r

/-! ### `sample`: the inputs drawn -/

@[simp] theorem State.sample_now : s.sample.input.now = s.input.now + s.nextDraw.elapsed := rfl
@[simp] theorem State.sample_randByte : s.sample.input.randByte = s.nextDraw.randByte := rfl
@[simp] theorem State.sample_keysHeld : s.sample.input.keysHeld = s.nextDraw.keysHeld := rfl
@[simp] theorem State.sample_keyPress : s.sample.input.keyPress = s.nextDraw.keyPress := rfl

/-! ### `skipIf` changes `pc` alone -/

/-- A skip moves `pc` by 2 when its condition holds. -/
@[simp] theorem State.skipIf_pc (c : Bool) : (s.skipIf c).pc = if c = true then s.pc + 2 else s.pc := by
  cases c <;> rfl

@[simp] theorem State.skipIf_config (c : Bool) : (s.skipIf c).config = s.config := by cases c <;> rfl
@[simp] theorem State.skipIf_v (c : Bool) : (s.skipIf c).v = s.v := by cases c <;> rfl
@[simp] theorem State.skipIf_index (c : Bool) : (s.skipIf c).index = s.index := by cases c <;> rfl
@[simp] theorem State.skipIf_stack (c : Bool) : (s.skipIf c).stack = s.stack := by cases c <;> rfl
@[simp] theorem State.skipIf_dt (c : Bool) : (s.skipIf c).dt = s.dt := by cases c <;> rfl
@[simp] theorem State.skipIf_st (c : Bool) : (s.skipIf c).st = s.st := by cases c <;> rfl
@[simp] theorem State.skipIf_mem (c : Bool) : (s.skipIf c).mem = s.mem := by cases c <;> rfl
@[simp] theorem State.skipIf_fb (c : Bool) : (s.skipIf c).fb = s.fb := by cases c <;> rfl
@[simp] theorem State.skipIf_mode (c : Bool) : (s.skipIf c).mode = s.mode := by cases c <;> rfl
@[simp] theorem State.skipIf_waitX (c : Bool) : (s.skipIf c).waitX = s.waitX := by cases c <;> rfl
@[simp] theorem State.skipIf_fault (c : Bool) : (s.skipIf c).fault = s.fault := by cases c <;> rfl
@[simp] theorem State.skipIf_curAddr (c : Bool) : (s.skipIf c).curAddr = s.curAddr := by cases c <;> rfl
@[simp] theorem State.skipIf_curWord (c : Bool) : (s.skipIf c).curWord = s.curWord := by cases c <;> rfl
@[simp] theorem State.skipIf_input (c : Bool) : (s.skipIf c).input = s.input := by cases c <;> rfl
@[simp] theorem State.skipIf_schedule (c : Bool) : (s.skipIf c).schedule = s.schedule := by cases c <;> rfl
@[simp] theorem State.skipIf_drawIndex (c : Bool) : (s.skipIf c).drawIndex = s.drawIndex := by cases c <;> rfl

/-- A skip changes `pc` alone. -/
theorem State.skipIf_eq (c : Bool) : s.skipIf c = { s with pc := (s.skipIf c).pc } := by cases c <;> rfl

/-! ### Whole-state forms -/

/-- Writing a register changes `v` alone. -/
theorem State.setReg_eq (x : Reg) (b : Byte) : s.setReg x b = { s with v := (s.setReg x b).v } := rfl

/-- A result and a flag change `v` alone. -/
theorem State.setRegFlag_eq (x f : Reg) (b : Byte) (c : Bool) :
    s.setRegFlag x b f c = { s with v := (s.setRegFlag x b f c).v } := rfl

/-- Writing bytes changes `mem` alone. -/
theorem State.writeBytes_eq (a : Nat) (bs : List Byte) : s.writeBytes a bs = { s with mem := (s.writeBytes a bs).mem } := rfl

/-- Drawing inputs moves the inputs alone. -/
theorem State.sample_onlyInputs : OnlyInputsMoved s s.sample := rfl

end Sys2Proof.Machine
end

