-- ==== Sys2Proof/Laws/Checks.lean ====
section
/-! SUPPORT. The checks: when each finds a fault, and which; and that raising is all or nothing. -/

namespace Sys2Proof.Machine

variable (s : State)

/-- `raiseOr`: the fault, or the effect. -/
theorem State.raiseOr_cases (c : Option FaultReason) (t : State) :
    (∃ r, c = some r ∧ s.raiseOr c t = s.raise r) ∨ (c = none ∧ s.raiseOr c t = t) := by
  cases c with
  | none => exact .inr ⟨rfl, rfl⟩
  | some r => exact .inl ⟨r, rfl, rfl⟩

@[simp] theorem State.raiseOr_none (t : State) : s.raiseOr none t = t := rfl
@[simp] theorem State.raiseOr_some (r : FaultReason) (t : State) : s.raiseOr (some r) t = s.raise r := rfl

/-- Store and BCDConversion: the fault, or the bytes written (R116). -/
theorem State.storeAtIndex_cases (bs : List Byte) :
    (∃ r, writeFault s.config s.indexAddr bs.length = some r ∧ s.storeAtIndex bs = s.raise r) ∨
    (writeFault s.config s.indexAddr bs.length = none ∧ s.storeAtIndex bs = s.writeBytes s.indexAddr bs) :=
  s.raiseOr_cases _ _

/-- A check finds nothing when no address of the range is bad. -/
theorem lowestAddr_eq_none {bad : Nat → Bool} {a n : Nat} (h : ∀ k, k < n → bad (a + k) = false) :
    lowestAddr bad a n = none := by
  simp only [lowestAddr, List.find?_eq_none, List.mem_range'_1]
  intro b hb
  have := h (b - a) (by omega)
  rw [show a + (b - a) = b by omega] at this
  simp [this]

/-- A check finds the lowest bad address. -/
theorem lowestAddr_eq_some {bad : Nat → Bool} {a n b : Nat} (hb : bad b = true) (h1 : a ≤ b) (h2 : b < a + n)
    (h : ∀ c, a ≤ c → c < b → bad c = false) : lowestAddr bad a n = some b := by
  obtain ⟨d, rfl⟩ : ∃ d, b = a + d := ⟨b - a, by omega⟩
  rw [lowestAddr, List.find?_eq_some_iff_append]
  refine ⟨hb, List.range' a d, List.range' (a + d + 1) (n - d - 1), ?_, ?_⟩
  · rw [← List.range'_succ, List.range'_append_1]
    congr 1
    omega
  · intro c hc
    rw [List.mem_range'_1] at hc
    simp [h c hc.1 hc.2]

/-- No range fault when the access lies inside the memory, or is empty (R65). -/
theorem rangeFault_eq_none {a n : Nat} (h : n = 0 ∨ a + n ≤ memSize) : rangeFault a n = none := by
  rw [rangeFault, lowestAddr_eq_none, Option.map_none]
  intro k hk
  have : ¬ memSize ≤ a + k := by omega
  simp [outOfRange, this]

/-- Else ADDRESS_RANGE with the lowest address at or above 4096 (R65, R172). -/
theorem rangeFault_eq_some {a n : Nat} (h0 : 0 < n) (h : memSize < a + n) :
    rangeFault a n = some { cause := .addressRange, info := some (max a memSize) } := by
  rw [rangeFault, lowestAddr_eq_some (b := max a memSize), Option.map_some]
  · simp [outOfRange]
  · omega
  · omega
  · intro c h1 h2
    have : ¬ memSize ≤ c := by omega
    simp [outOfRange, this]

/-- No font fault under FONT_WRITE_POLICY = WRITE, or away from the font region (R66). -/
theorem fontFault_eq_none {c : Config} {a n : Nat}
    (h : c.fontWrite = .write ∨ a + n ≤ fontBase ∨ fontBase + fontLen ≤ a) : fontFault c a n = none := by
  unfold fontFault
  split
  · rfl
  · rename_i hc
    rw [lowestAddr_eq_none, Option.map_none]
    intro k hk
    have h' := h.resolve_left (by simp [hc])
    have : ¬(fontBase ≤ a + k ∧ a + k < fontBase + fontLen) := by omega
    simp [inFont, this]

/-- Else FONT_WRITE with the lowest address in the font region (R66, R172). -/
theorem fontFault_eq_some {c : Config} {a n : Nat} (hc : c.fontWrite = .fault) (h1 : fontBase < a + n)
    (h2 : a < fontBase + fontLen) (h0 : 0 < n) :
    fontFault c a n = some { cause := .fontWrite, info := some (max a fontBase) } := by
  unfold fontFault
  rw [hc]
  simp only
  have hl : 0 < fontLen := by decide
  rw [lowestAddr_eq_some (b := max a fontBase), Option.map_some]
  · have : fontBase ≤ max a fontBase ∧ max a fontBase < fontBase + fontLen := by omega
    simpa [inFont] using this
  · omega
  · omega
  · intro b h3 h4
    have : ¬(fontBase ≤ b ∧ b < fontBase + fontLen) := by omega
    simp [inFont, this]

/-- A write that meets `Writable` passes every check (R65, R66). -/
theorem writeFault_eq_none {a n : Nat} (h : Writable s a n) : writeFault s.config a n = none := by
  rw [writeFault, rangeFault_eq_none (.inr h.1), Option.none_or]
  exact fontFault_eq_none h.2

/-- Where a write passes every check, its addresses lie in the memory. -/
theorem writeFault_none_range {c : Config} {a n : Nat} (h : writeFault c a n = none) : n = 0 ∨ a + n ≤ memSize := by
  by_contra hc
  rw [writeFault, rangeFault_eq_some (by omega) (by omega)] at h
  simp at h

/-- Where a write passes every check and the policy is FAULT, it misses the font region (R66). -/
theorem writeFault_none_font {c : Config} {a n : Nat} (hc : c.fontWrite = .fault) (h : writeFault c a n = none) :
    n = 0 ∨ a + n ≤ fontBase ∨ fontBase + fontLen ≤ a := by
  by_contra hn
  rw [writeFault, fontFault_eq_some hc (by omega) (by omega) (by omega)] at h
  simp at h

/-- A read past the memory faults first, whatever the font policy (R177). -/
theorem writeFault_range {c : Config} {a n : Nat} (h0 : 0 < n) (h : memSize < a + n) :
    writeFault c a n = some { cause := .addressRange, info := some (max a memSize) } := by
  rw [writeFault, rangeFault_eq_some h0 h, Option.some_or]

end Sys2Proof.Machine
end

