-- ==== Sys2Proof/Laws/Decode.lean ====
section
/-! SUPPORT. The fields of an encoded word, and a word from its bytes: what each format of the encoder puts where (30_encoding R88, R92). -/

namespace Sys2Proof

/-- Bits taken above the low part of an append come from the high part. -/
theorem extract_append_high {a b : Nat} (u : BitVec a) (v : BitVec b) (start len : Nat) :
    (u ++ v).extractLsb' (b + start) len = u.extractLsb' start len := by
  apply BitVec.eq_of_getLsbD_eq
  intro i hi
  have h1 : ¬ b + start + i < b := by omega
  have h2 : b + start + i - b = start + i := by omega
  simp [BitVec.getLsbD_append, h1, h2]

/-- Bits taken inside the low part of an append come from it. -/
theorem extract_append_low {a b : Nat} (u : BitVec a) (v : BitVec b) {start len : Nat} (h : start + len ≤ b) :
    (u ++ v).extractLsb' start len = v.extractLsb' start len := by
  apply BitVec.eq_of_getLsbD_eq
  intro i hi
  have h1 : start + i < b := by omega
  simp [BitVec.getLsbD_append, h1]

/-! ### Format A -/

@[simp] theorem fieldF_encodeA (f : Nibble) (nnn : Addr) : fieldF (encodeA f nnn) = f :=
  BitVec.extractLsb'_append_eq_left

@[simp] theorem fieldNNN_encodeA (f : Nibble) (nnn : Addr) : fieldNNN (encodeA f nnn) = nnn :=
  BitVec.extractLsb'_append_eq_right

/-! ### Formats RI and R -/

@[simp] theorem fieldF_encodeRI (f : Nibble) (x : Reg) (nn : Byte) : fieldF (encodeRI f x nn) = f :=
  (extract_append_high (f ++ x) nn 4 4).trans BitVec.extractLsb'_append_eq_left

@[simp] theorem fieldX_encodeRI (f : Nibble) (x : Reg) (nn : Byte) : fieldX (encodeRI f x nn) = x :=
  (extract_append_high (f ++ x) nn 0 4).trans BitVec.extractLsb'_append_eq_right

@[simp] theorem fieldNN_encodeRI (f : Nibble) (x : Reg) (nn : Byte) : fieldNN (encodeRI f x nn) = nn :=
  BitVec.extractLsb'_append_eq_right

/-! ### Formats RR, ALU and RRN -/

@[simp] theorem fieldF_encodeRRN (f : Nibble) (x y : Reg) (n : Nibble) : fieldF (encodeRRN f x y n) = f :=
  ((extract_append_high (f ++ x ++ y) n 8 4).trans (extract_append_high (f ++ x) y 4 4)).trans
    BitVec.extractLsb'_append_eq_left

@[simp] theorem fieldX_encodeRRN (f : Nibble) (x y : Reg) (n : Nibble) : fieldX (encodeRRN f x y n) = x :=
  ((extract_append_high (f ++ x ++ y) n 4 4).trans (extract_append_high (f ++ x) y 0 4)).trans
    BitVec.extractLsb'_append_eq_right

@[simp] theorem fieldY_encodeRRN (f : Nibble) (x y : Reg) (n : Nibble) : fieldY (encodeRRN f x y n) = y :=
  (extract_append_high (f ++ x ++ y) n 0 4).trans BitVec.extractLsb'_append_eq_right

@[simp] theorem fieldN_encodeRRN (f : Nibble) (x y : Reg) (n : Nibble) : fieldN (encodeRRN f x y n) = n :=
  BitVec.extractLsb'_append_eq_right

/-! ### Bytes of a word (R68) -/

@[simp] theorem hiByte_wordOfBytes (hi lo : Byte) : hiByte (wordOfBytes hi lo) = hi :=
  BitVec.extractLsb'_append_eq_left

@[simp] theorem loByte_wordOfBytes (hi lo : Byte) : loByte (wordOfBytes hi lo) = lo :=
  BitVec.extractLsb'_append_eq_right

/-- The bytes of a word make the word. -/
@[simp] theorem wordOfBytes_bytes (w : Word) : wordOfBytes (hiByte w) (loByte w) = w := by
  apply BitVec.eq_of_getLsbD_eq
  intro i hi
  refine (BitVec.getLsbD_append (n := 8) (m := 8)).trans ?_
  by_cases h : i < 8
  · simp [loByte, h]
  · have h2 : i - 8 < 8 := by omega
    have h3 : 8 + (i - 8) = i := by omega
    simp [hiByte, h, h2, h3]

/-! ### The fixed bits of a row: an encoded word under the masks of the opcode table -/

/-- Masking an append masks its parts. -/
theorem append_and {a b : Nat} (u p : BitVec a) (v q : BitVec b) : (u ++ v) &&& (p ++ q) = (u &&& p) ++ (v &&& q) := by
  apply BitVec.eq_of_getLsbD_eq
  intro i hi
  simp only [BitVec.getLsbD_and, BitVec.getLsbD_append]
  split <;> rfl

theorem encodeA_mask (f : Nibble) (nnn : Addr) : encodeA f nnn &&& 0xF000 = encodeA f 0 := by
  refine (append_and f 0xF#4 nnn 0x000#12).trans ?_
  rw [show f &&& 0xF#4 = f from BitVec.and_allOnes, show nnn &&& 0#12 = 0 from BitVec.and_zero]
  rfl

theorem encodeRI_mask (f : Nibble) (x : Reg) (nn m : Byte) :
    encodeRI f x nn &&& ((0xF#4 ++ 0#4) ++ m : Word) = encodeRI f 0 (nn &&& m) := by
  refine (append_and (f ++ x) (0xF#4 ++ 0#4) nn m).trans ?_
  rw [append_and, show f &&& 0xF#4 = f from BitVec.and_allOnes, show x &&& 0#4 = 0 from BitVec.and_zero]
  rfl

theorem encodeRRN_mask (f : Nibble) (x y : Reg) (n m : Nibble) :
    encodeRRN f x y n &&& ((0xF#4 ++ 0#4) ++ 0#4 ++ m : Word) = encodeRRN f 0 0 (n &&& m) := by
  refine (append_and (f ++ x ++ y) (0xF#4 ++ 0#4 ++ 0#4) n m).trans ?_
  rw [append_and, append_and, show f &&& 0xF#4 = f from BitVec.and_allOnes, show x &&& 0#4 = 0 from BitVec.and_zero,
    show y &&& 0#4 = 0 from BitVec.and_zero]
  rfl

end Sys2Proof
end

