-- ==== Sys2Proof/Laws/Framebuffer.lean ====
section
/-! SUPPORT. The framebuffer: a pixel after a toggle, after a sprite bit, and after a sprite row. -/

namespace Sys2Proof.Machine

/-- Two framebuffers with the same pixels are equal. -/
theorem Framebuffer.ext_pixel {f g : Framebuffer} (h : ∀ px py, f.pixel px py = g.pixel px py) : f = g := by
  apply Vector.ext
  intro i hi
  apply Vector.ext
  intro j hj
  exact h ⟨j, hj⟩ ⟨i, hi⟩

@[simp] theorem Framebuffer.pixel_clear (px : Fin 64) (py : Fin 32) : Framebuffer.clear.pixel px py = false := by
  simp [Framebuffer.pixel, Framebuffer.clear]

/-- A toggle changes its own pixel alone. -/
theorem Framebuffer.pixel_toggle (f : Framebuffer) (px qx : Fin 64) (py qy : Fin 32) :
    (f.toggle px py).pixel qx qy = if qx = px ∧ qy = py then !f.pixel qx qy else f.pixel qx qy := by
  unfold Framebuffer.pixel Framebuffer.toggle
  by_cases h1 : py = qy
  · subst h1
    by_cases h2 : px = qx
    · subst h2; simp
    · have h3 : ¬ qx = px := fun e => h2 e.symm
      have h4 : px.val ≠ qx.val := fun e => h2 (Fin.ext e)
      simp [h3, Vector.getElem_set_ne, h4]
  · have h3 : ¬ qy = py := fun e => h1 e.symm
    have h4 : py.val ≠ qy.val := fun e => h1 (Fin.ext e)
    simp [h3, Vector.getElem_set_ne, h4]

/-- A pixel after a sprite bit at column `px`, row `py` (R150). -/
theorem Canvas.drawBit_pixel (c : Canvas) (px py : Nat) (bit : Bool) (qx : Fin 64) (qy : Fin 32) :
    (c.drawBit px py bit).fb.pixel qx qy =
      (c.fb.pixel qx qy ^^ (decide (px = qx.val) && decide (py = qy.val) && bit)) := by
  unfold Canvas.drawBit
  split
  · rename_i h
    rw [Framebuffer.pixel_toggle]
    by_cases h1 : px = qx.val
    · by_cases h2 : py = qy.val
      · have e : qx = ⟨px, h.1⟩ ∧ qy = ⟨py, h.2.1⟩ := ⟨Fin.ext h1.symm, Fin.ext h2.symm⟩
        simp [e, h.2.2]
      · have : ¬(qx = ⟨px, h.1⟩ ∧ qy = ⟨py, h.2.1⟩) := fun e => h2 (by rw [e.2])
        simp [this, h2]
    · have : ¬(qx = ⟨px, h.1⟩ ∧ qy = ⟨py, h.2.1⟩) := fun e => h1 (by rw [e.1])
      simp [this, h1]
  · rename_i h
    by_cases h1 : px = qx.val
    · by_cases h2 : py = qy.val
      · have : bit = false := by
          cases bit
          · rfl
          · exact absurd ⟨h1 ▸ qx.isLt, h2 ▸ qy.isLt, rfl⟩ h
        simp [this]
      · simp [h2]
    · simp [h1]

/-- The collision after a sprite bit: it was there, or the bit fell on a set pixel (R153). -/
theorem Canvas.drawBit_collision (c : Canvas) (px py : Nat) (bit : Bool) :
    (c.drawBit px py bit).collision = true ↔
      c.collision = true ∨ ∃ (hx : px < 64) (hy : py < 32), bit = true ∧ c.fb.pixel ⟨px, hx⟩ ⟨py, hy⟩ = true := by
  unfold Canvas.drawBit
  split
  · rename_i h
    simp [h.1, h.2.1, h.2.2]
  · rename_i h
    refine ⟨.inl, fun h' => h'.resolve_right ?_⟩
    rintro ⟨hx, hy, hb, -⟩
    exact h ⟨hx, hy, hb⟩

/-- Bits `0 .. k - 1` of a sprite row drawn from column `x0`: each pixel of the row under a 1 bit is toggled, and the collision says
whether one of them was set. -/
theorem Canvas.drawBits (c : Canvas) (x0 py : Nat) (row : Byte) (k : Nat) :
    let d := (List.range k).foldl (fun c b => c.drawBit (x0 + b) py (row.getLsbD (7 - b))) c
    (∀ qx qy, d.fb.pixel qx qy = (c.fb.pixel qx qy ^^
      (decide (x0 ≤ qx.val ∧ qx.val < x0 + k ∧ py = qy.val) && row.getLsbD (7 - (qx.val - x0))))) ∧
    (d.collision = true ↔ c.collision = true ∨ ∃ qx qy, c.fb.pixel qx qy = true ∧
      x0 ≤ qx.val ∧ qx.val < x0 + k ∧ py = qy.val ∧ row.getLsbD (7 - (qx.val - x0)) = true) := by
  induction k with
  | zero =>
    refine ⟨fun qx qy => ?_, ?_⟩
    · have : ¬(x0 ≤ qx.val ∧ qx.val < x0 + 0 ∧ py = qy.val) := by omega
      simp only [List.range_zero, List.foldl_nil, this, decide_false, Bool.false_and, Bool.xor_false]
    · simp only [List.range_zero, List.foldl_nil]
      refine ⟨.inl, fun h => h.resolve_right ?_⟩
      rintro ⟨qx, qy, -, h1, h2, -⟩
      omega
  | succ k ih =>
    obtain ⟨ih1, ih2⟩ := ih
    simp only [List.range_succ, List.foldl_append, List.foldl_cons, List.foldl_nil]
    refine ⟨fun qx qy => ?_, ?_⟩
    · rw [Canvas.drawBit_pixel, ih1]
      by_cases h : x0 + k = qx.val
      · have h1 : ¬(x0 ≤ qx.val ∧ qx.val < x0 + k ∧ py = qy.val) := by omega
        have h2 : qx.val - x0 = k := by omega
        by_cases h3 : py = qy.val
        · have : x0 ≤ qx.val ∧ qx.val < x0 + (k + 1) ∧ py = qy.val := by omega
          simp [h, h2, h3, this]
        · simp [h3]
      · have : (x0 ≤ qx.val ∧ qx.val < x0 + k ∧ py = qy.val) ↔ (x0 ≤ qx.val ∧ qx.val < x0 + (k + 1) ∧ py = qy.val) := by
          omega
        simp [h, this]
    · rw [Canvas.drawBit_collision, ih2, or_assoc]
      refine or_congr_right ⟨?_, ?_⟩
      · rintro (⟨qx, qy, h0, h1, h2, h3⟩ | ⟨hx, hy, hb, hp⟩)
        · exact ⟨qx, qy, h0, h1, by omega, h3⟩
        · have hp : c.fb.pixel ⟨x0 + k, hx⟩ ⟨py, hy⟩ = true := by simpa [ih1] using hp
          exact ⟨⟨x0 + k, hx⟩, ⟨py, hy⟩, hp, by simp, by simp, rfl, by simpa using hb⟩
      · rintro ⟨qx, qy, h0, h1, h2, h3, h4⟩
        by_cases h : qx.val = x0 + k
        · refine .inr ⟨h ▸ qx.isLt, h3 ▸ qy.isLt, ?_, ?_⟩
          · rwa [show k = qx.val - x0 by omega]
          · have e1 : (⟨x0 + k, h ▸ qx.isLt⟩ : Fin 64) = qx := Fin.ext h.symm
            have e2 : (⟨py, h3 ▸ qy.isLt⟩ : Fin 32) = qy := Fin.ext h3
            simp [ih1, ← h0, ← e1, ← e2]
        · exact .inl ⟨qx, qy, h0, h1, by omega, h3, h4⟩

/-- A whole sprite drawn at `(x0, y0)`: each pixel under a 1 bit is toggled, no other (R150 to R152), and the collision says whether one of
them was set before (R153). -/
theorem Canvas.drawRows_spec (x0 : Nat) (rows : List Byte) :
    ∀ (c : Canvas) (y0 : Nat),
    (∀ qx qy, (c.drawRows x0 y0 rows).fb.pixel qx qy = (c.fb.pixel qx qy ^^
      (decide (x0 ≤ qx.val ∧ qx.val < x0 + 8 ∧ y0 ≤ qy.val ∧ qy.val < y0 + rows.length) &&
        (rows.getD (qy.val - y0) 0).getLsbD (7 - (qx.val - x0))))) ∧
    ((c.drawRows x0 y0 rows).collision = true ↔ c.collision = true ∨ ∃ qx qy, c.fb.pixel qx qy = true ∧
      (x0 ≤ qx.val ∧ qx.val < x0 + 8 ∧ y0 ≤ qy.val ∧ qy.val < y0 + rows.length) ∧
      (rows.getD (qy.val - y0) 0).getLsbD (7 - (qx.val - x0)) = true) := by
  induction rows with
  | nil =>
    intro c y0
    refine ⟨fun qx qy => ?_, ?_⟩
    · simp [Canvas.drawRows]
    · refine ⟨.inl, fun h => h.resolve_right ?_⟩
      rintro ⟨qx, qy, -, ⟨-, -, h1, h2⟩, -⟩
      simp only [List.length_nil] at h2
      omega
  | cons row rows ih =>
    intro c y0
    obtain ⟨b1, b2⟩ := Canvas.drawBits c x0 y0 row 8
    obtain ⟨i1, i2⟩ := ih (c.drawRow x0 y0 row) (y0 + 1)
    change ∀ qx qy, (c.drawRow x0 y0 row).fb.pixel qx qy = _ at b1
    change (c.drawRow x0 y0 row).collision = true ↔ _ at b2
    have hd : ∀ qy : Nat, y0 < qy → (row :: rows).getD (qy - y0) 0 = rows.getD (qy - (y0 + 1)) 0 := by
      intro qy hq
      rw [show qy - y0 = (qy - (y0 + 1)) + 1 by omega, List.getD_cons_succ]
    refine ⟨fun qx qy => ?_, ?_⟩
    · rw [Canvas.drawRows, i1, b1]
      by_cases h : y0 = qy.val
      · simp [h]
      · by_cases h2 : y0 + 1 ≤ qy.val
        · have h3 : (x0 ≤ qx.val ∧ qx.val < x0 + 8 ∧ y0 + 1 ≤ qy.val ∧ qy.val < y0 + 1 + rows.length) ↔
              (x0 ≤ qx.val ∧ qx.val < x0 + 8 ∧ y0 ≤ qy.val ∧ qy.val < y0 + (row :: rows).length) := by
            simp only [List.length_cons]; omega
          rw [hd qy h2]
          simp only [h, h3, and_false, decide_false, Bool.false_and, Bool.xor_false]
        · have h3 : ¬ y0 ≤ qy.val := by omega
          simp [h, h2, h3]
    · rw [Canvas.drawRows, i2, b2, or_assoc]
      refine or_congr_right ⟨?_, ?_⟩
      · rintro (⟨qx, qy, h0, h1, h2, h3, h4⟩ | ⟨qx, qy, h0, ⟨h1, h2, h3, h4⟩, h5⟩)
        · refine ⟨qx, qy, h0, ⟨h1, h2, by omega, by simp only [List.length_cons]; omega⟩, ?_⟩
          rwa [← h3, Nat.sub_self, List.getD_cons_zero]
        · refine ⟨qx, qy, ?_, ⟨h1, h2, by omega, by simp only [List.length_cons]; omega⟩, ?_⟩
          · have : y0 ≠ qy.val := by omega
            simpa [b1, this] using h0
          · rwa [hd qy (by omega)]
      · rintro ⟨qx, qy, h0, ⟨h1, h2, h3, h4⟩, h5⟩
        by_cases h : y0 = qy.val
        · refine .inl ⟨qx, qy, h0, h1, h2, h, ?_⟩
          rwa [← h, Nat.sub_self, List.getD_cons_zero] at h5
        · refine .inr ⟨qx, qy, ?_, ⟨h1, h2, by omega, ?_⟩, ?_⟩
          · simpa [b1, h] using h0
          · simp only [List.length_cons] at h4; omega
          · rwa [hd qy (by omega)] at h5

end Sys2Proof.Machine
end

