-- ==== Sys2Proof/Laws/Memory.lean ====
section
/-! SUPPORT. Memory: a read after a write, the canonical form, and that equal reads are equal memories. -/

namespace Sys2Proof.Machine

variable {font : Vector Byte 80}

/-- An address below every listed one reads as its reset contents. -/
theorem Memory.read_of_lt {m : Memory} {a : Nat} (h : ∀ c ∈ m, a < c.1) : Memory.read font m a = Memory.initial font a := by
  induction m with
  | nil => rfl
  | cons c m ih =>
    have h1 : a ≠ c.1 := Nat.ne_of_lt (h c (by simp))
    simpa [Memory.read, h1] using ih fun d hd => h d (by simp [hd])

/-- Every entry of a memory after a write is an old one or the one written. -/
theorem Memory.mem_write {m : Memory} {a : Nat} {b : Byte} {c : Host.Cell} (h : c ∈ Memory.write font m a b) :
    c ∈ m ∨ (c = (a, b) ∧ b ≠ Memory.initial font a) := by
  induction m with
  | nil => grind [Memory.write]
  | cons d m ih =>
    obtain ⟨k, e⟩ := d
    grind [Memory.write]

/-- A write keeps the addresses strictly rising, whatever the address. -/
theorem Memory.write_pairwise {m : Memory} (a : Nat) (b : Byte) (h : m.Pairwise fun c d => c.1 < d.1) :
    (Memory.write font m a b).Pairwise fun c d => c.1 < d.1 := by
  induction m with
  | nil => unfold Memory.write; split <;> simp
  | cons d m ih =>
    obtain ⟨k, e⟩ := d
    rw [List.pairwise_cons] at h
    unfold Memory.write
    split_ifs with h1 h2 h3 h4
    · exact List.pairwise_cons.2 h
    · refine List.pairwise_cons.2 ⟨fun c hc => ?_, List.pairwise_cons.2 h⟩
      rcases List.mem_cons.1 hc with rfl | hc
      · exact h1
      · exact Nat.lt_trans h1 (h.1 c hc)
    · exact h.2
    · exact List.pairwise_cons.2 ⟨fun c hc => h3 ▸ h.1 c hc, h.2⟩
    · refine List.pairwise_cons.2 ⟨fun c hc => ?_, ih h.2⟩
      rcases Memory.mem_write hc with hc | ⟨rfl, -⟩
      · exact h.1 c hc
      · show k < a
        omega

/-- A write keeps the canonical form. -/
theorem Memory.write_wf {m : Memory} {a : Nat} (b : Byte) (h : Memory.wf font m) (ha : a < memSize) :
    Memory.wf font (Memory.write font m a b) := by
  refine ⟨Memory.write_pairwise a b h.1, fun c hc => ?_⟩
  rcases Memory.mem_write hc with hc | ⟨rfl, hb⟩
  · exact h.2 c hc
  · exact ⟨ha, hb⟩

/-- A read after a write, in a canonical memory. -/
theorem Memory.read_write {m : Memory} (h : m.Pairwise fun c d => c.1 < d.1) (a : Nat) (b : Byte) (r : Nat) :
    Memory.read font (Memory.write font m a b) r = if r = a then b else Memory.read font m r := by
  induction m with
  | nil => grind [Memory.write, Memory.read]
  | cons d m ih =>
    obtain ⟨k, e⟩ := d
    rw [List.pairwise_cons] at h
    have ih := ih h.2
    have hlt : a = k → Memory.read font m a = Memory.initial font a := fun ha =>
      Memory.read_of_lt fun c hc => ha ▸ h.1 c hc
    have hlt' : a < k → Memory.read font m a = Memory.initial font a := fun ha =>
      Memory.read_of_lt fun c hc => Nat.lt_trans ha (h.1 c hc)
    grind [Memory.write, Memory.read]

/-- A range write keeps the canonical form, inside the memory. -/
theorem Memory.writeBytes_wf {bs : List Byte} :
    ∀ {m : Memory} {a : Nat}, Memory.wf font m → a + bs.length ≤ memSize → Memory.wf font (Memory.writeBytes font m a bs) := by
  induction bs with
  | nil => intro m a h _; exact h
  | cons b bs ih =>
    intro m a h ha
    rw [List.length_cons] at ha
    exact ih (Memory.write_wf b h (by omega)) (by omega)

/-- A read after a range write: byte `r - a` where the range covers `r`, else as before. -/
theorem Memory.read_writeBytes {bs : List Byte} :
    ∀ {m : Memory} (a r : Nat), (m.Pairwise fun c d => c.1 < d.1) →
      Memory.read font (Memory.writeBytes font m a bs) r =
        if h : a ≤ r ∧ r < a + bs.length then bs[r - a]'(by omega) else Memory.read font m r := by
  induction bs with
  | nil => intro m a r _; rw [dif_neg (by simp only [List.length_nil]; omega)]; rfl
  | cons b bs ih =>
    intro m a r h
    rw [Memory.writeBytes, ih (a + 1) r (Memory.write_pairwise a b h), Memory.read_write h]
    by_cases h1 : r = a
    · subst h1; simp
    · by_cases h2 : a + 1 ≤ r ∧ r < a + 1 + bs.length
      · have e : r - a = (r - (a + 1)) + 1 := by omega
        rw [dif_pos h2, dif_pos (by simp only [List.length_cons]; omega)]
        simp [e]
      · rw [dif_neg h2, dif_neg (by simp only [List.length_cons]; omega), if_neg h1]

/-- The reset memory lists nothing, and is canonical. -/
theorem Memory.nil_wf : Memory.wf font [] := by simp [Memory.wf]

/-- `State.readByte` reads `mem` and the font. -/
theorem State.readByte_congr {s t : State} (h : t.mem = s.mem) (hc : t.config = s.config) (a : Nat) :
    t.readByte a = s.readByte a := by
  simp only [State.readByte, h, hc]

/-- A byte read after a range write (R65, R78). -/
theorem State.readByte_writeBytes {s : State} (h : s.mem.Pairwise fun c d => c.1 < d.1) (a r : Nat) (bs : List Byte) :
    (s.writeBytes a bs).readByte r = if h : a ≤ r ∧ r < a + bs.length then bs[r - a]'(by omega) else s.readByte r :=
  Memory.read_writeBytes a r h

@[simp] theorem State.readBytes_length (s : State) (a n : Nat) : (s.readBytes a n).length = n := by
  simp [State.readBytes]

/-- Byte `k` of a range read. -/
@[simp] theorem State.readBytes_getElem (s : State) (a n k : Nat) (h : k < (s.readBytes a n).length) :
    (s.readBytes a n)[k] = s.readByte (a + k) := by
  simp [State.readBytes]

end Sys2Proof.Machine
end

