-- ==== Sys2Proof/Laws/PerInstr.lean ====
section
/-! SUPPORT. Per instruction: the encoder's word lies in the instruction's row of spec/opcode_table.json. -/

namespace Sys2Proof.Laws.EncodedInRow

/-- The word the encoder writes for `i` has the fixed bits of its row of the opcode table (30_encoding R93). -/
def Statement (i : Instr) : Prop := i.matchesRow (encode i) = true

theorem clearScreen : Statement .clearScreen := by unfold Statement; decide
theorem ret : Statement .ret := by unfold Statement; decide
theorem jump (nnn : Addr) : Statement (.jump nnn) :=
  beq_iff_eq.2 (encodeA_mask _ _)
theorem callSub (nnn : Addr) : Statement (.callSub nnn) :=
  beq_iff_eq.2 (encodeA_mask _ _)
theorem skipEq (x : Reg) (nn : Byte) : Statement (.skipEq x nn) :=
  beq_iff_eq.2 ((encodeRI_mask _ _ _ 0x00).trans (by rw [show nn &&& 0x00 = 0 from BitVec.and_zero]; rfl))
theorem skipNEq (x : Reg) (nn : Byte) : Statement (.skipNEq x nn) :=
  beq_iff_eq.2 ((encodeRI_mask _ _ _ 0x00).trans (by rw [show nn &&& 0x00 = 0 from BitVec.and_zero]; rfl))
theorem skipRegEq (x : Reg) (y : Reg) : Statement (.skipRegEq x y) :=
  beq_iff_eq.2 ((encodeRRN_mask _ _ _ _ 0xF).trans rfl)
theorem set (x : Reg) (nn : Byte) : Statement (.set x nn) :=
  beq_iff_eq.2 ((encodeRI_mask _ _ _ 0x00).trans (by rw [show nn &&& 0x00 = 0 from BitVec.and_zero]; rfl))
theorem add (x : Reg) (nn : Byte) : Statement (.add x nn) :=
  beq_iff_eq.2 ((encodeRI_mask _ _ _ 0x00).trans (by rw [show nn &&& 0x00 = 0 from BitVec.and_zero]; rfl))
theorem loadRegReg (x : Reg) (y : Reg) : Statement (.loadRegReg x y) :=
  beq_iff_eq.2 ((encodeRRN_mask _ _ _ _ 0xF).trans rfl)
theorem or (x : Reg) (y : Reg) : Statement (.or x y) :=
  beq_iff_eq.2 ((encodeRRN_mask _ _ _ _ 0xF).trans rfl)
theorem and (x : Reg) (y : Reg) : Statement (.and x y) :=
  beq_iff_eq.2 ((encodeRRN_mask _ _ _ _ 0xF).trans rfl)
theorem xor (x : Reg) (y : Reg) : Statement (.xor x y) :=
  beq_iff_eq.2 ((encodeRRN_mask _ _ _ _ 0xF).trans rfl)
theorem addRegReg (x : Reg) (y : Reg) : Statement (.addRegReg x y) :=
  beq_iff_eq.2 ((encodeRRN_mask _ _ _ _ 0xF).trans rfl)
theorem sub (x : Reg) (y : Reg) : Statement (.sub x y) :=
  beq_iff_eq.2 ((encodeRRN_mask _ _ _ _ 0xF).trans rfl)
theorem shiftRight (x : Reg) (y : Reg) : Statement (.shiftRight x y) :=
  beq_iff_eq.2 ((encodeRRN_mask _ _ _ _ 0xF).trans rfl)
theorem subNeg (x : Reg) (y : Reg) : Statement (.subNeg x y) :=
  beq_iff_eq.2 ((encodeRRN_mask _ _ _ _ 0xF).trans rfl)
theorem shiftLeft (x : Reg) (y : Reg) : Statement (.shiftLeft x y) :=
  beq_iff_eq.2 ((encodeRRN_mask _ _ _ _ 0xF).trans rfl)
theorem skipRegNEq (x : Reg) (y : Reg) : Statement (.skipRegNEq x y) :=
  beq_iff_eq.2 ((encodeRRN_mask _ _ _ _ 0xF).trans rfl)
theorem setIndex (nnn : Addr) : Statement (.setIndex nnn) :=
  beq_iff_eq.2 (encodeA_mask _ _)
theorem jumpWithOffset (nnn : Addr) : Statement (.jumpWithOffset nnn) :=
  beq_iff_eq.2 (encodeA_mask _ _)
theorem random (x : Reg) (nn : Byte) : Statement (.random x nn) :=
  beq_iff_eq.2 ((encodeRI_mask _ _ _ 0x00).trans (by rw [show nn &&& 0x00 = 0 from BitVec.and_zero]; rfl))
theorem display (x : Reg) (y : Reg) (n : Nibble) : Statement (.display x y n) :=
  beq_iff_eq.2 ((encodeRRN_mask _ _ _ _ 0x0).trans (by rw [show n &&& 0x0 = 0 from BitVec.and_zero]; rfl))
theorem skipIfPressed (x : Reg) : Statement (.skipIfPressed x) :=
  beq_iff_eq.2 ((encodeRI_mask _ _ _ 0xFF).trans rfl)
theorem skipIfNotPressed (x : Reg) : Statement (.skipIfNotPressed x) :=
  beq_iff_eq.2 ((encodeRI_mask _ _ _ 0xFF).trans rfl)
theorem getDelayTimer (x : Reg) : Statement (.getDelayTimer x) :=
  beq_iff_eq.2 ((encodeRI_mask _ _ _ 0xFF).trans rfl)
theorem waitForKey (x : Reg) : Statement (.waitForKey x) :=
  beq_iff_eq.2 ((encodeRI_mask _ _ _ 0xFF).trans rfl)
theorem setDelayTimer (x : Reg) : Statement (.setDelayTimer x) :=
  beq_iff_eq.2 ((encodeRI_mask _ _ _ 0xFF).trans rfl)
theorem setSoundTimer (x : Reg) : Statement (.setSoundTimer x) :=
  beq_iff_eq.2 ((encodeRI_mask _ _ _ 0xFF).trans rfl)
theorem addToIndex (x : Reg) : Statement (.addToIndex x) :=
  beq_iff_eq.2 ((encodeRI_mask _ _ _ 0xFF).trans rfl)
theorem setIndexToFontLocation (x : Reg) : Statement (.setIndexToFontLocation x) :=
  beq_iff_eq.2 ((encodeRI_mask _ _ _ 0xFF).trans rfl)
theorem bcdConversion (x : Reg) : Statement (.bcdConversion x) :=
  beq_iff_eq.2 ((encodeRI_mask _ _ _ 0xFF).trans rfl)
theorem store (x : Reg) : Statement (.store x) :=
  beq_iff_eq.2 ((encodeRI_mask _ _ _ 0xFF).trans rfl)
theorem load (x : Reg) : Statement (.load x) :=
  beq_iff_eq.2 ((encodeRI_mask _ _ _ 0xFF).trans rfl)

end Sys2Proof.Laws.EncodedInRow
end

