-- ==== Sys2Proof/Laws/Registers.lean ====
section
/-! SUPPORT. Registers: a read after a write, and the range write of Load. -/

namespace Sys2Proof.Machine

variable (s : State)

/-- A read sees the register file only. -/
theorem State.reg_congr {s t : State} (h : t.v = s.v) (r : Reg) : t.reg r = s.reg r := by
  simp only [State.reg, h]

/-- A register read after a register write. -/
theorem State.reg_setReg (x r : Reg) (b : Byte) : (s.setReg x b).reg r = if r = x then b else s.reg r := by
  unfold State.reg State.setReg
  by_cases h : r = x
  · subst h; simp
  · have : x.toNat ≠ r.toNat := fun e => h (BitVec.eq_of_toNat_eq e.symm)
    simp [h, Vector.getElem_set_ne, this]

@[simp] theorem State.reg_setReg_self (x : Reg) (b : Byte) : (s.setReg x b).reg x = b := by
  simp [State.reg_setReg]

@[simp] theorem State.reg_setReg_ne {x r : Reg} (b : Byte) (h : r ≠ x) : (s.setReg x b).reg r = s.reg r := by
  simp [State.reg_setReg, h]

/-- The result is written first and the flag last, so the flag wins where they meet (R117). -/
theorem State.reg_setRegFlag (x f r : Reg) (b : Byte) (c : Bool) :
    (s.setRegFlag x b f c).reg r = if r = f then flagByte c else if r = x then b else s.reg r := by
  simp only [State.setRegFlag, State.reg_setReg]

/-- VF is register 15 (R25). -/
@[simp] theorem regF_eq : regF = 15 := rfl

/-- The flag, in the register it goes to. -/
@[simp] theorem State.reg_setRegFlag_flag (x f : Reg) (b : Byte) (c : Bool) : (s.setRegFlag x b f c).reg f = flagByte c := by
  rw [State.reg_setRegFlag, if_pos rfl]

/-- The result, where the flag goes to another register. -/
theorem State.reg_setRegFlag_result {x f : Reg} (b : Byte) (c : Bool) (h : x ≠ f) : (s.setRegFlag x b f c).reg x = b := by
  rw [State.reg_setRegFlag, if_neg h, if_pos rfl]

/-- Every other register is as before. -/
theorem State.reg_setRegFlag_other {x f r : Reg} (b : Byte) (c : Bool) (h : r ≠ x) (h2 : r ≠ f) :
    (s.setRegFlag x b f c).reg r = s.reg r := by
  rw [State.reg_setRegFlag, if_neg h2, if_neg h]

/-- A flag as a number (R38). -/
@[simp] theorem flagByte_toNat (b : Bool) : (flagByte b).toNat = if b = true then 1 else 0 := by
  cases b <;> rfl

/-- A flag is 1 exactly when it holds (R38). -/
theorem flagByte_eq_one (b : Bool) : flagByte b = 1 ↔ b = true := by cases b <;> decide

/-- A flag is 0 or 1 (R38). -/
theorem flagByte_bit (b : Bool) : flagByte b = 0 ∨ flagByte b = 1 := by cases b <;> decide

/-- Store writes `x + 1` bytes (R147). -/
@[simp] theorem State.regsUpTo_length (x : Reg) : (s.regsUpTo x).length = x.toNat + 1 := by
  simp only [State.regsUpTo, regCount, List.length_take, Vector.length_toList]
  have := x.isLt
  omega

/-- Byte `r` that Store writes is register `r` (R147). -/
@[simp] theorem State.regsUpTo_getElem (x r : Reg) (h : r.toNat < (s.regsUpTo x).length) :
    (s.regsUpTo x)[r.toNat] = s.reg r := by
  simp [State.regsUpTo, State.reg]

/-- The range write puts byte `j - k` in register `j`, for the registers it covers. -/
theorem RegFile.writeFrom_getElem (bs : List Byte) :
    ∀ (v : RegFile) (k j : Nat) (hj : j < 16),
      (RegFile.writeFrom v k bs)[j] = if h : k ≤ j ∧ j < k + bs.length then bs[j - k]'(by omega) else v[j] := by
  induction bs with
  | nil => intro v k j hj; rw [dif_neg (by simp only [List.length_nil]; omega)]; rfl
  | cons b bs ih =>
    intro v k j hj
    rw [RegFile.writeFrom, ih]
    by_cases h1 : k = j
    · subst h1; simp
    · by_cases h2 : k + 1 ≤ j ∧ j < k + 1 + bs.length
      · have e : j - k = (j - (k + 1)) + 1 := by omega
        rw [dif_pos h2, dif_pos (by simp only [List.length_cons]; omega)]
        simp [e]
      · rw [dif_neg h2, dif_neg (by simp only [List.length_cons]; omega)]
        exact Vector.getElem_setIfInBounds_ne hj h1

/-- Load's register write (R148): register `r` takes byte `r`, where there is one. -/
theorem State.reg_setRegs (bs : List Byte) (r : Reg) :
    (s.setRegs bs).reg r = if h : r.toNat < bs.length then bs[r.toNat] else s.reg r := by
  simp [State.reg, State.setRegs, RegFile.writeFrom_getElem bs s.v 0 r.toNat r.isLt]

end Sys2Proof.Machine
end

