-- ==== Sys2Proof/Laws/Step.lean ====
section
/-! SUPPORT. The step: what a step request is in each mode, and that every instruction and every step answers a next state. -/

namespace Sys2Proof.Machine

variable (s : State)

/-- Every instruction answers a next state: a fatal fault is one (R174; log 6). -/
theorem exec_next (i : Instr) : ∃ t, exec i s = .next t := by
  cases i <;> exact ⟨_, rfl⟩

/-- No instruction touches the parameters, its own address and word, or the inputs (R39, R111, R118). -/
theorem exec_frame {i : Instr} {s t : State} (h : exec i s = .next t) :
    t = { s with
      v := t.v, pc := t.pc, index := t.index, stack := t.stack, dt := t.dt, st := t.st, mem := t.mem, fb := t.fb
      mode := t.mode, waitX := t.waitX, fault := t.fault } := by
  cases i <;> injection h with h <;> subst h
  case addToIndex x =>
    generalize indexOverflowFault s.config (s.index.toNat + (s.reg x).toNat) = c
    cases c with
    | none => rw [State.raiseOr_none, State.addIndex_eq]
    | some r => rfl
  all_goals first
    | rfl
    | (rw [State.skipIf_eq]; done)
    | (unfold State.raiseOr; split <;> first | rfl | rw [State.skipIf_eq])
    | (unfold State.storeAtIndex State.raiseOr; split <;> rfl)
    | (split <;> rfl)

/-- An instruction keeps the parameters (R39). -/
theorem exec_config {i : Instr} {s t : State} (h : exec i s = .next t) : t.config = s.config := by
  rw [exec_frame h]

/-- An instruction keeps the inputs of its step (R118). -/
theorem exec_input {i : Instr} {s t : State} (h : exec i s = .next t) : t.input = s.input := by
  rw [exec_frame h]

theorem step_idle (h : s.mode = .idle) : step s = .next s.sample := by
  simp only [step, stepWith, h]

theorem step_faulted (h : s.mode = .faulted) : step s = .next s.sample := by
  simp only [step, stepWith, h]

theorem step_waitKey (h : s.mode = .waitKey) : step s = .next s.sample.waitStep := by
  simp only [step, stepWith, h]

theorem step_run (h : s.mode = .run) :
    step s = executeWith exec (decode s.config.strictDecode s.sample.fetch.curWord) s.sample.fetch := by
  simp only [step, stepWith, h, stepRunWith, State.sample_config]

/-- Every step request answers a next state. -/
theorem step_next : ∃ t, step s = .next t := by
  cases h : s.mode with
  | idle => exact ⟨_, step_idle s h⟩
  | faulted => exact ⟨_, step_faulted s h⟩
  | waitKey => exact ⟨_, step_waitKey s h⟩
  | run =>
    rw [step_run s h]
    cases decode s.config.strictDecode s.sample.fetch.curWord with
    | known i => exact exec_next s.sample.fetch i
    | unknown w => exact ⟨_, rfl⟩

/-- The word fetched after the inputs are drawn is the one fetched before: drawing touches no memory. -/
@[simp] theorem State.sample_nextWord : s.sample.fetch.curWord = s.nextWord := rfl

/-- What a step request can be (R110, R114, R115): nothing but inputs; a completed key wait; an executed instruction; an Unknown word. -/
theorem step_cases {s t : State} (h : step s = .next t) :
    ((s.mode = .idle ∨ s.mode = .faulted ∨ (s.mode = .waitKey ∧ s.nextDraw.keyPress = none)) ∧ t = s.sample) ∨
    (s.mode = .waitKey ∧ ∃ k, s.nextDraw.keyPress = some k ∧
      t = { s.sample.setReg s.waitX (k.setWidth 8) with mode := .run }) ∨
    (s.mode = .run ∧ ∃ i, decode s.config.strictDecode s.nextWord = .known i ∧ exec i s.sample.fetch = .next t) ∨
    (s.mode = .run ∧ ∃ w, decode s.config.strictDecode s.nextWord = .unknown w ∧
      t = s.sample.fetch.raise { cause := .unknownOpcode, info := some w.toNat }) := by
  cases hm : s.mode with
  | idle =>
    rw [step_idle s hm] at h
    injection h with h
    exact .inl ⟨.inl rfl, h.symm⟩
  | faulted =>
    rw [step_faulted s hm] at h
    injection h with h
    exact .inl ⟨.inr (.inl rfl), h.symm⟩
  | waitKey =>
    rw [step_waitKey s hm] at h
    injection h with h
    unfold State.waitStep at h
    rw [State.sample_keyPress] at h
    cases hk : s.nextDraw.keyPress with
    | none => rw [hk] at h; exact .inl ⟨.inr (.inr ⟨rfl, rfl⟩), h.symm⟩
    | some k => rw [hk] at h; exact .inr (.inl ⟨rfl, k, rfl, h.symm⟩)
  | run =>
    rw [step_run s hm, State.sample_nextWord] at h
    cases hd : decode s.config.strictDecode s.nextWord with
    | known i => rw [hd] at h; exact .inr (.inr (.inl ⟨rfl, i, rfl, h⟩))
    | unknown w =>
      rw [hd] at h
      injection h with h
      exact .inr (.inr (.inr ⟨rfl, w, rfl, h.symm⟩))

end Sys2Proof.Machine
end

