-- ==== Sys2Proof/Laws/Timers.lean ====
section
/-! SUPPORT. The countdown: a read is a saturating subtraction, and reads in between change no later read (45_timers R158 to R160). -/

namespace Sys2Proof.Machine

/-- The saturating subtraction of R158, as a number: past 255 ticks, or past the value, it is 0. -/
theorem saturatingSub_toNat (b : Byte) (k : Nat) :
    (if 255 < k then 0 else if k ≤ b.toNat then BitVec.ofNat 8 (b.toNat - k) else 0 : Byte).toNat = b.toNat - k := by
  have hb := b.isLt
  split
  · simp; omega
  · split
    · rw [BitVec.toNat_ofNat, Nat.mod_eq_of_lt (by omega)]
    · simp; omega

/-- A read at time `t` is the stored value less the whole ticks since the reference, never below 0 (R158). -/
theorem Timer.valueAt_toNat (tick t : Nat) (T : Timer) :
    (T.valueAt tick t).toNat = T.val.toNat - (t - T.ref) / tick :=
  saturatingSub_toNat T.val ((t - T.ref) / tick)

@[simp] theorem Timer.setAt_val (t : Nat) (b : Byte) : (Timer.setAt t b).val = b := rfl
@[simp] theorem Timer.setAt_ref (t : Nat) (b : Byte) : (Timer.setAt t b).ref = t := rfl
@[simp] theorem Timer.afterGet_val (tick t : Nat) (T : Timer) : (T.afterGet tick t).val = T.valueAt tick t := rfl
@[simp] theorem Timer.afterGet_ref (tick t : Nat) (T : Timer) :
    (T.afterGet tick t).ref = T.ref + (t - T.ref) / tick * tick := rfl

/-- The reference never passes the time of the read (R155). -/
theorem Timer.afterGet_ref_le {tick t : Nat} {T : Timer} (h : T.ref ≤ t) : (T.afterGet tick t).ref ≤ t := by
  rw [Timer.afterGet_ref]
  have := Nat.div_mul_le_self (t - T.ref) tick
  omega

/-- A read at `t` changes no read at a later time `u` (R160). -/
theorem Timer.valueAt_afterGet {tick t u : Nat} {T : Timer} (htick : 0 < tick) (h1 : T.ref ≤ t) (h2 : t ≤ u) :
    (T.afterGet tick t).valueAt tick u = T.valueAt tick u := by
  apply BitVec.eq_of_toNat_eq
  simp only [Timer.valueAt_toNat, Timer.afterGet_val, Timer.afterGet_ref]
  have h3 := Nat.div_mul_le_self (t - T.ref) tick
  have h4 : u - T.ref = (u - (T.ref + (t - T.ref) / tick * tick)) + tick * ((t - T.ref) / tick) := by
    rw [Nat.mul_comm tick]; omega
  rw [h4, Nat.add_mul_div_left _ _ htick]
  omega

end Sys2Proof.Machine
end

