-- ==== Sys2Proof/Tests/Slice0.lean ====
section
/-! SUPPORT. Tests. The expected values are the vectors of 95_test_vectors.md, named in each comment, or read off the rule named there; then a
witness for the hypotheses of each obligation, one for each clause, at a boundary of its range. -/

namespace Sys2Proof.Tests

open Sys2Proof.Machine

-- One theorem at a time: checked in parallel, so many waiting threads pass the memory limit of the check.
set_option Elab.async false

/-! ### Helpers -/

/-- The state an outcome holds; reset where it holds none. -/
def stateOf : Result → State
  | .next t => t
  | .fault _ => State.reset
  | .refused _ => State.reset

/-- Registers set one after another. -/
def setAll (s : State) : List (Reg × Byte) → State
  | [] => s
  | (x, b) :: rest => setAll (s.setReg x b) rest

/-- After reset, in mode RUN (the convention of 95_test_vectors.md), with these registers. -/
def base (regs : List (Reg × Byte)) : State := setAll { State.reset with mode := .run } regs

/-- One step with the word `w` at `pc`. -/
def after (w : Word) (s : State) : State := stateOf (step (s.placeWord w))

/-- One draw: time passed, random byte, held keys, key press. -/
def draw (elapsed : Nat) (randByte : Byte) (held : List (Fin 16)) (press : Option Key) : Draw :=
  { elapsed := elapsed, randByte := randByte, keysHeld := Vector.ofFn fun k => held.contains k, keyPress := press }

/-- The next step sees this draw. -/
def given (d : Draw) (s : State) : State := { s with schedule := [d] }

/-- With the index register at `a`. -/
def atIndex (a : Word) (s : State) : State := { s with index := a }

/-- With these parameters. -/
def withConfig (c : Config) (s : State) : State := { s with config := c }

/-- After reset and the load of a ROM. -/
def loaded (rom : List Byte) : State :=
  match State.reset.loadRom rom with
  | .ok t => t
  | .error _ => State.reset

/-- The fault record of a vector (R172, R174). -/
def faulted (s : State) (cause : FaultCause) (w a : Word) (info : Option Nat) : Prop :=
  s.mode = .faulted ∧ s.faultStatus = some { cause := cause, word := w, addr := a, info := info }

/-- The pixels of a list are set on a clear screen. -/
def lit (pixels : List (Fin 64 × Fin 32)) : Framebuffer :=
  pixels.foldl (fun f p => f.toggle p.1 p.2) Framebuffer.clear

/-! ### Well-formedness (R8, R74): the checks refuse -/

theorem test_tick_zero_refused : ({ Config.default with tick := 0 } : Config).wellFormed = false := by decide
theorem test_stack_depth_15_refused : ({ Config.default with stackDepth := some 15 } : Config).wellFormed = false := by decide
theorem test_default_parameters_accepted : Config.default.wellFormed = true := by decide
/-- V-RST-2 and V-RST-3: 3584 bytes fit, 3585 do not. -/
theorem test_rom_size_bound : romFits (List.replicate 3584 0) = true ∧ romFits (List.replicate 3585 0) = false := by
  simp only [romFits, List.length_replicate, progMaxLen]; decide

/-! ### Decoding: for each constructor a word written out from the opcode map (R93) -/

theorem test_decode_family_0 :
    decode true 0b0000_0000_1110_0000 = .known .clearScreen ∧ decode true 0b0000_0000_1110_1110 = .known .ret := by decide
theorem test_decode_families_1_2 :
    decode true 0b0001_1010_1011_1100 = .known (.jump 0xABC) ∧
    decode true 0b0010_0011_0000_0001 = .known (.callSub 0x301) := by decide
theorem test_decode_families_3_to_5 :
    decode true 0b0011_0011_0001_0000 = .known (.skipEq 3 0x10) ∧
    decode true 0b0100_0011_0001_0001 = .known (.skipNEq 3 0x11) ∧
    decode true 0b0101_1010_1011_0000 = .known (.skipRegEq 10 11) := by decide
theorem test_decode_families_6_7 :
    decode true 0b0110_1010_0010_1111 = .known (.set 10 0x2F) ∧
    decode true 0b0111_0010_0000_0001 = .known (.add 2 0x01) := by decide
theorem test_decode_family_8_logic :
    decode true 0b1000_0101_0100_0000 = .known (.loadRegReg 5 4) ∧ decode true 0b1000_0001_0010_0001 = .known (.or 1 2) ∧
    decode true 0b1000_0001_0010_0010 = .known (.and 1 2) ∧ decode true 0b1000_0001_0010_0011 = .known (.xor 1 2) := by decide
theorem test_decode_family_8_arithmetic :
    decode true 0b1000_1111_0001_0100 = .known (.addRegReg 15 1) ∧ decode true 0b1000_0001_0010_0101 = .known (.sub 1 2) ∧
    decode true 0b1000_0011_0100_0110 = .known (.shiftRight 3 4) ∧ decode true 0b1000_0001_0010_0111 = .known (.subNeg 1 2) ∧
    decode true 0b1000_0011_0100_1110 = .known (.shiftLeft 3 4) := by decide
theorem test_decode_families_9_to_D :
    decode true 0b1001_0001_0010_0000 = .known (.skipRegNEq 1 2) ∧ decode true 0b1010_0010_1111_0000 = .known (.setIndex 0x2F0) ∧
    decode true 0b1011_0011_0000_0000 = .known (.jumpWithOffset 0x300) ∧
    decode true 0b1100_0001_0000_1111 = .known (.random 1 0x0F) ∧
    decode true 0b1101_0110_0111_0101 = .known (.display 6 7 5) := by decide
theorem test_decode_family_E :
    decode true 0b1110_0010_1001_1110 = .known (.skipIfPressed 2) ∧
    decode true 0b1110_0010_1010_0001 = .known (.skipIfNotPressed 2) := by decide
theorem test_decode_family_F_timers_and_key :
    decode true 0b1111_0001_0000_0111 = .known (.getDelayTimer 1) ∧ decode true 0b1111_0011_0000_1010 = .known (.waitForKey 3) ∧
    decode true 0b1111_0011_0001_0101 = .known (.setDelayTimer 3) ∧
    decode true 0b1111_0011_0001_1000 = .known (.setSoundTimer 3) := by decide
theorem test_decode_family_F_index :
    decode true 0b1111_0010_0001_1110 = .known (.addToIndex 2) ∧
    decode true 0b1111_0101_0010_1001 = .known (.setIndexToFontLocation 5) ∧
    decode true 0b1111_0000_0011_0011 = .known (.bcdConversion 0) ∧ decode true 0b1111_0001_0101_0101 = .known (.store 1) ∧
    decode true 0b1111_0001_0110_0101 = .known (.load 1) := by decide
/-- V-DEC-1, 3, 4, 6, 7, 12, 13; V-CTL-19, V-CTL-23, V-KEY-8. -/
theorem test_decode_unknown :
    decode true 0x0000 = .unknown 0x0000 ∧ decode true 0x01E0 = .unknown 0x01E0 ∧ decode false 0x01E0 = .known .clearScreen ∧
    decode true 0x0123 = .unknown 0x0123 ∧ decode true 0x8008 = .unknown 0x8008 ∧ decode true 0xF000 = .unknown 0xF000 ∧
    decode true 0xFFFF = .unknown 0xFFFF ∧ decode true 0x5121 = .unknown 0x5121 ∧ decode true 0x912F = .unknown 0x912F ∧
    decode true 0xE29F = .unknown 0xE29F := by decide
theorem test_decode_table_word :
    decodeTableWord 16 0x8346 = some (.shiftRight 3 4) ∧ decodeTableWord 16 0x5121 = none := by decide
/-- L1-11: the disassembly of 00 E0 12 00 FF. -/
theorem test_disassemble :
    disassemble true [0x00, 0xE0, 0x12, 0x00, 0xFF] = ["ClearScreen", "Jump 200", "Byte FF"] := by decide +kernel

/-! ### Fetch -/

/-- V-FET-1. -/
theorem test_fetch_wraps :
    (after 0x1200 { base [] with pc := 0xFFF }).pc = 0x200 ∧
    ({ base [] with pc := 0xFFF }.placeWord 0x1200).readByte 0x000 = 0x00 := by decide +kernel
/-- V-FET-2. -/
theorem test_fetch_above_memory :
    (after 0x6007 { base [] with pc := 0x1000 }).reg 0 = 0x07 ∧ (after 0x6007 { base [] with pc := 0x1000 }).pc = 0x1002 := by
  decide +kernel

/-! ### Control transfer -/

/-- V-CTL-1. -/
theorem test_return :
    (after 0x00EE { base [] with pc := 0x300, stack := [0x204] }).pc = 0x204 ∧
    (after 0x00EE { base [] with pc := 0x300, stack := [0x204] }).stack = [] := by decide +kernel
/-- V-CTL-2. -/
theorem test_return_underflow :
    faulted (after 0x00EE { base [] with pc := 0x300 }) .stackUnderflow 0x00EE 0x300 none ∧
    (after 0x00EE { base [] with pc := 0x300 }).pc = 0x302 := by unfold faulted; decide +kernel
/-- V-CTL-5. -/
theorem test_jump_odd : (after 0x1301 (base [])).pc = 0x301 := by decide +kernel
/-- V-CTL-8. -/
theorem test_call :
    (after 0x2300 { base [] with pc := 0xFFE }).pc = 0x300 ∧
    (after 0x2300 { base [] with pc := 0xFFE }).stack = [0x1000] := by decide +kernel
/-- V-CTL-9. -/
theorem test_call_overflow :
    faulted (after 0x2300 { base [] with stack := List.replicate 16 0 }) .stackOverflow 0x2300 0x200 none ∧
    (after 0x2300 { base [] with stack := List.replicate 16 0 }).pc = 0x202 := by unfold faulted; decide +kernel
/-- V-CTL-11, V-CTL-12. -/
theorem test_skipEq :
    (after 0x3310 (base [(3, 0x10)])).pc = 0x204 ∧ (after 0x3311 (base [(3, 0x10)])).pc = 0x202 := by decide +kernel
/-- V-CTL-14. -/
theorem test_skipEq_wraps : (after 0x3000 { base [] with pc := 0xFFFE }).pc = 0x0002 := by decide +kernel
/-- V-CTL-15, V-CTL-16. -/
theorem test_skipNEq :
    (after 0x4311 (base [(3, 0x10)])).pc = 0x204 ∧ (after 0x4310 (base [(3, 0x10)])).pc = 0x202 := by decide +kernel
/-- V-CTL-17, V-CTL-20. -/
theorem test_skipRegEq :
    (after 0x5120 (base [(1, 7), (2, 7)])).pc = 0x204 ∧
    (after 0x5121 (withConfig { Config.default with strictDecode := false } (base [(1, 7), (2, 7)]))).pc = 0x204 := by
  decide +kernel
/-- V-CTL-21, V-CTL-22. -/
theorem test_skipRegNEq :
    (after 0x9120 (base [(1, 7), (2, 8)])).pc = 0x204 ∧ (after 0x9110 (base [(1, 7)])).pc = 0x202 := by decide +kernel
/-- V-CTL-26, V-CTL-27. -/
theorem test_jumpWithOffset :
    (after 0xBFFF (base [(0, 0xFF)])).pc = 0x10FE ∧ (after 0xB300 (base [(3, 0x20)])).pc = 0x300 := by decide +kernel

/-! ### Registers and ALU -/

/-- V-ALU-1. -/
theorem test_set : (after 0x6A2F (base [])).reg 10 = 0x2F ∧ (after 0x6A2F (base [])).pc = 0x202 := by decide +kernel
/-- V-ALU-2. -/
theorem test_add_wraps :
    (after 0x7201 (base [(2, 0xFF), (15, 0x55)])).reg 2 = 0x00 ∧
    (after 0x7201 (base [(2, 0xFF), (15, 0x55)])).reg 15 = 0x55 := by decide +kernel
/-- V-ALU-4. -/
theorem test_loadRegReg :
    (after 0x8540 (base [(4, 0x33)])).reg 5 = 0x33 ∧ (after 0x8540 (base [(4, 0x33)])).reg 4 = 0x33 := by decide +kernel
/-- V-ALU-5. -/
theorem test_or :
    (after 0x8121 (base [(1, 0x0F), (2, 0xF0), (15, 0x77)])).reg 1 = 0xFF ∧
    (after 0x8121 (base [(1, 0x0F), (2, 0xF0), (15, 0x77)])).reg 15 = 0x77 := by decide +kernel
/-- V-ALU-6. -/
theorem test_and : (after 0x8122 (base [(1, 0x3C), (2, 0x0F)])).reg 1 = 0x0C := by decide +kernel
/-- V-ALU-7. -/
theorem test_xor : (after 0x8123 (base [(1, 0x3C), (2, 0x0F)])).reg 1 = 0x33 := by decide +kernel
/-- V-ALU-10. -/
theorem test_addRegReg_carry :
    (after 0x8124 (base [(1, 0xFF), (2, 0x01)])).reg 1 = 0x00 ∧ (after 0x8124 (base [(1, 0xFF), (2, 0x01)])).reg 15 = 1 := by
  decide +kernel
/-- V-ALU-12: the flag is written last. -/
theorem test_addRegReg_into_VF : (after 0x8F14 (base [(15, 0xFF), (1, 2)])).reg 15 = 1 := by decide +kernel
/-- V-ALU-16. -/
theorem test_sub_borrow :
    (after 0x8125 (base [(1, 5), (2, 7)])).reg 1 = 0xFE ∧ (after 0x8125 (base [(1, 5), (2, 7)])).reg 15 = 0 := by decide +kernel
/-- V-ALU-17. -/
theorem test_sub_equal :
    (after 0x8125 (base [(1, 7), (2, 7)])).reg 1 = 0x00 ∧ (after 0x8125 (base [(1, 7), (2, 7)])).reg 15 = 1 := by decide +kernel
/-- V-ALU-21. -/
theorem test_subNeg :
    (after 0x8127 (base [(1, 5), (2, 7)])).reg 1 = 0x02 ∧ (after 0x8127 (base [(1, 5), (2, 7)])).reg 15 = 1 := by decide +kernel
/-- V-ALU-20. -/
theorem test_subNeg_borrow :
    (after 0x8127 (base [(1, 7), (2, 5)])).reg 1 = 0xFE ∧ (after 0x8127 (base [(1, 7), (2, 5)])).reg 15 = 0 := by decide +kernel
/-- V-ALU-23, V-ALU-24. -/
theorem test_shiftRight :
    (after 0x8346 (base [(3, 5), (4, 0x77)])).v.toList.take 5 = [0, 0, 0, 0x02, 0x01] ∧
    (after 0x8346 (withConfig { Config.default with shiftFlagDest := .vf } (base [(3, 5), (4, 0x77)]))).v.toList =
      [0, 0, 0, 0x02, 0x77, 0, 0, 0, 0, 0, 0, 0, 0, 0, 0, 0x01] := by decide +kernel
/-- V-ALU-25: the shifted-out bit is written last. -/
theorem test_shiftRight_same : (after 0x8336 (base [(3, 5)])).reg 3 = 0x01 := by decide +kernel
/-- V-ALU-28. -/
theorem test_shiftLeft :
    (after 0x834E (base [(3, 0x81)])).reg 3 = 0x02 ∧ (after 0x834E (base [(3, 0x81)])).reg 4 = 0x01 := by decide +kernel
/-- V-ALU-30. -/
theorem test_shiftLeft_zero :
    (after 0x834E (base [(3, 0x7F), (4, 0x55)])).reg 3 = 0xFE ∧ (after 0x834E (base [(3, 0x7F), (4, 0x55)])).reg 4 = 0x00 := by
  decide +kernel
/-- V-ALU-33. -/
theorem test_random : (after 0xC10F (given (draw 0 0xB6 [] none) (base []))).reg 1 = 0x06 := by decide +kernel
/-- V-ALU-31. -/
theorem test_unknown_word :
    faulted (after 0x8128 (base [])) .unknownOpcode 0x8128 0x200 (some 0x8128) ∧ (after 0x8128 (base [])).pc = 0x202 := by
  unfold faulted; decide +kernel

/-! ### Index register and memory -/

/-- V-IDX-1. -/
theorem test_setIndex : (after 0xA2F0 (base [])).index = 0x2F0 := by decide +kernel
/-- V-IDX-4, V-IDX-5. -/
theorem test_addToIndex_flag :
    (after 0xF21E (atIndex 0xFF0 (base [(2, 0x20)]))).index = 0x1010 ∧
    (after 0xF21E (atIndex 0xFF0 (base [(2, 0x20)]))).reg 2 = 0x01 ∧
    (after 0xF21E (withConfig { Config.default with indexFlagDest := .vf } (atIndex 0xFF0 (base [(2, 0x20)])))).reg 15 = 1 := by
  decide +kernel
/-- V-IDX-9, V-IDX-10. -/
theorem test_addToIndex_overflow :
    faulted (after 0xF21E (atIndex 0xFFF0 (base [(2, 0x20)]))) .indexOverflow 0xF21E 0x200 (some 0x10010) ∧
    (after 0xF21E (withConfig { Config.default with indexOverflow := .wrap } (atIndex 0xFFF0 (base [(2, 0x20)])))).index = 0x0010 ∧
    (after 0xF21E (withConfig { Config.default with indexOverflow := .wrap } (atIndex 0xFFF0 (base [(2, 0x20)])))).reg 2 = 0x20 := by
  unfold faulted; decide +kernel
/-- V-IDX-12, V-IDX-15. -/
theorem test_fontLocation :
    (after 0xF529 (base [(5, 5)])).index = 0x069 ∧ (after 0xF329 (base [(3, 0xFF)])).index = 0x54B := by decide +kernel
/-- V-IDX-16. -/
theorem test_bcd :
    (after 0xF033 (atIndex 0x300 (base [(0, 156)]))).readBytes 0x300 3 = [1, 5, 6] ∧
    (after 0xF033 (atIndex 0x300 (base [(0, 156)]))).index = 0x300 := by decide +kernel
/-- V-IDX-21. -/
theorem test_bcd_font_fault :
    faulted (after 0xF033 (atIndex 0x09E (base [(0, 156)]))) .fontWrite 0xF033 0x200 (some 0x09E) ∧
    (after 0xF033 (atIndex 0x09E (base [(0, 156)]))).readByte 0x09E = 0x80 := by unfold faulted; decide +kernel
/-- V-IDX-23. -/
theorem test_store :
    (after 0xF155 (atIndex 0x400 (base [(0, 0x11), (1, 0x22), (2, 0x33)]))).readBytes 0x400 3 = [0x11, 0x22, 0x00] ∧
    (after 0xF155 (atIndex 0x400 (base [(0, 0x11), (1, 0x22), (2, 0x33)]))).index = 0x400 := by decide +kernel
/-- V-IDX-26. -/
theorem test_store_range_fault :
    faulted (after 0xFF55 (atIndex 0xFF1 (base [(0, 1)]))) .addressRange 0xFF55 0x200 (some 0x1000) ∧
    (after 0xFF55 (atIndex 0xFF1 (base [(0, 1)]))).readByte 0xFF1 = 0 := by unfold faulted; decide +kernel
/-- V-IDX-30: glyph 0. -/
theorem test_load :
    (after 0xF465 (atIndex 0x050 (base [(5, 0x99)]))).v.toList.take 6 = [0xF0, 0x90, 0x90, 0x90, 0xF0, 0x99] := by decide +kernel
/-- V-IDX-32. -/
theorem test_load_range_fault :
    faulted (after 0xF165 (atIndex 0xFFF (base [(0, 0x99)]))) .addressRange 0xF165 0x200 (some 0x1000) ∧
    (after 0xF165 (atIndex 0xFFF (base [(0, 0x99)]))).reg 0 = 0x99 := by unfold faulted; decide +kernel

/-! ### Framebuffer -/

/-- V-DSP-1. -/
theorem test_clearScreen :
    (after 0x00E0 { base [(15, 5)] with fb := lit [(0, 0), (63, 31)] }).fb = lit [] ∧
    (after 0x00E0 { base [(15, 5)] with fb := lit [(0, 0), (63, 31)] }).reg 15 = 5 := by decide +kernel
/-- V-DSP-3. -/
theorem test_display_collides :
    (after 0xD011 { atIndex 0x050 (base []) with fb := lit [(1, 0)] }).fb = lit [(0, 0), (2, 0), (3, 0)] ∧
    (after 0xD011 { atIndex 0x050 (base []) with fb := lit [(1, 0)] }).reg 15 = 1 := by decide +kernel
/-- V-DSP-7. -/
theorem test_display_clips :
    (after 0xD015 (atIndex 0x050 (base [(1, 30)]))).fb = lit [(0, 30), (1, 30), (2, 30), (3, 30), (0, 31), (3, 31)] := by
  decide +kernel

/-! ### Timers -/

/-- V-TMR-8. -/
theorem test_getDelayTimer :
    (after 0xF107 (given (draw 3500 0 [] none) { base [] with dt := { val := 0x0A, ref := 0 } })).reg 1 = 0x07 ∧
    (after 0xF107 (given (draw 3500 0 [] none) { base [] with dt := { val := 0x0A, ref := 0 } })).dt =
      { val := 0x07, ref := 3000 } := by decide +kernel
/-- V-TMR-7: 300 ticks. -/
theorem test_getDelayTimer_saturates :
    (after 0xF107 (given (draw 300000 0 [] none) { base [] with dt := { val := 0xFF, ref := 0 } })).dt =
      { val := 0x00, ref := 300000 } := by decide +kernel
/-- V-TMR-1. -/
theorem test_setDelayTimer :
    (after 0xF315 (given (draw 5007 0 [] none) (base [(3, 0x3C)]))).dt = { val := 0x3C, ref := 5007 } := by decide +kernel
/-- V-TMR-2. -/
theorem test_setSoundTimer :
    (after 0xF318 (given (draw 5007 0 [] none) (base [(3, 0x02)]))).soundActive 7006 = true ∧
    (after 0xF318 (given (draw 5007 0 [] none) (base [(3, 0x02)]))).soundActive 7007 = false := by decide +kernel

/-! ### Keypad -/

/-- V-KEY-1, V-KEY-2. -/
theorem test_skipIfPressed :
    (after 0xE29E (given (draw 0 0 [5] none) (base [(2, 5)]))).pc = 0x204 ∧
    (after 0xE29E (given (draw 0 0 [4, 6] none) (base [(2, 5)]))).pc = 0x202 := by decide +kernel
/-- V-KEY-5. -/
theorem test_skipIfPressed_range :
    faulted (after 0xE29E (given (draw 0 0 [0] none) (base [(2, 0x10)]))) .keyRange 0xE29E 0x200 (some 0x10) := by
  unfold faulted; decide +kernel
/-- V-KEY-3, V-KEY-4. -/
theorem test_skipIfNotPressed :
    (after 0xE2A1 (given (draw 0 0 [] none) (base [(2, 5)]))).pc = 0x204 ∧
    (after 0xE2A1 (given (draw 0 0 [5] none) (base [(2, 5)]))).pc = 0x202 := by decide +kernel
/-- V-KEY-7. -/
theorem test_skipIfNotPressed_range :
    (after 0xE2A1 (withConfig { Config.default with keyRange := .notPressed } (given (draw 0 0 [0] none) (base [(2, 0x10)])))).pc =
      0x204 := by decide +kernel
/-- V-KEY-9: a press at this step does not complete the wait. -/
theorem test_waitForKey :
    (after 0xF30A (given (draw 0 0 [] (some 4)) (base [(3, 0x44)]))).mode = .waitKey ∧
    (after 0xF30A (given (draw 0 0 [] (some 4)) (base [(3, 0x44)]))).waitX = 3 ∧
    (after 0xF30A (given (draw 0 0 [] (some 4)) (base [(3, 0x44)]))).reg 3 = 0x44 := by decide +kernel
/-- V-KEY-11, V-KEY-12. -/
theorem test_key_press :
    (stateOf (step (given (draw 0 0 [] (some 0xA)) { base [] with mode := .waitKey, waitX := 3 }))).reg 3 = 0x0A ∧
    (stateOf (step (given (draw 0 0 [] (some 0xA)) { base [] with mode := .waitKey, waitX := 3 }))).mode = .run ∧
    (stateOf (step (given (draw 0 0 [5] none) { base [] with mode := .waitKey, waitX := 3 }))).mode = .waitKey := by decide +kernel

/-! ### Reset and ROM load -/

/-- V-RST-1: the font stands, every glyph's last byte among it, and nothing else. -/
theorem test_reset_memory :
    State.reset.readBytes 0x04F 6 = [0x00, 0xF0, 0x90, 0x90, 0x90, 0xF0] ∧
    State.reset.readBytes 0x09B 6 = [0xF0, 0x80, 0xF0, 0x80, 0x80, 0x00] := by decide +kernel
/-- P1: the load of 00 E0 12 00, then its first step. -/
theorem test_load_rom_then_step :
    (loaded [0x00, 0xE0, 0x12, 0x00]).mode = .run ∧ (loaded [0x00, 0xE0, 0x12, 0x00]).readBytes 0x200 5 = [0x00, 0xE0, 0x12, 0x00, 0] ∧
    (stateOf (step (loaded [0x00, 0xE0, 0x12, 0x00]))).pc = 0x202 := by decide +kernel
/-- The host's placement: the word placed in the reset state is the one the next step runs. -/
theorem test_withFetchWord :
    (stateOf (step (State.reset.withFetchWord 16 0x6A2F))).reg 10 = 0x2F ∧
    (stateOf (step (State.reset.withFetchWord 16 0x6A2F))).mode = .run := by decide +kernel
/-- V-RST-6, V-RST-7. -/
theorem test_no_step :
    (stateOf (step State.reset)).mode = .idle ∧ (stateOf (step State.reset)).pc = 0x200 ∧
    (stateOf (step (after 0x00EE (base [])))).pc = 0x202 := by decide +kernel
/-- The trace of a step (R185, R187). -/
theorem test_trace : (after 0x8346 (base [])).traceEntry.text = "ShiftRight V3, V4" := by decide +kernel

/-! ### Witnesses: states and operands that meet the hypotheses of each obligation -/

theorem witness_StrictDecodeIsTheOpcodeTable :
    decode true 0x8346 = .known (.shiftRight 3 4) ∧ encode (.shiftRight 3 4) = 0x8346 ∧ decode true 0x0123 = .unknown 0x0123 := by
  decide
theorem witness_StrictDecodeGovernsFamilies059 :
    fieldF 0x01E0 = 0x0 ∧ fieldF 0x5121 = 0x5 ∧ fieldF 0x912F = 0x9 ∧
    fieldF 0x8346 ≠ 0x0 ∧ fieldF 0x8346 ≠ 0x5 ∧ fieldF 0x8346 ≠ 0x9 := by decide

/-- A running state whose next word is `w`. -/
def ready (w : Word) (s : State) : State := s.placeWord w

theorem witness_StepRunsTheDecodedInstruction :
    (ready 0x8346 (base [])).mode = .run ∧
    decode (ready 0x8346 (base [])).config.strictDecode (ready 0x8346 (base [])).nextWord = .known (.shiftRight 3 4) := by
  decide +kernel
theorem witness_ProgramCounterAfterEachStep :
    (∃ t, step (ready 0x2300 (base [])) = .next t ∧ t.mode ≠ .faulted) ∧
    (∃ t, step (ready 0x00EE (base [])) = .next t ∧ t.mode = .faulted) ∧
    (ready 0x2300 (base [])).mode = .run ∧ (ready 0x00EE (base [])).mode = .run ∧
    decode (ready 0x2300 (base [])).config.strictDecode (ready 0x2300 (base [])).nextWord = .known (.callSub 0x300) ∧
    decode (ready 0x00EE (base [])).config.strictDecode (ready 0x00EE (base [])).nextWord = .known .ret :=
  ⟨⟨_, rfl, by decide +kernel⟩, ⟨_, rfl, by decide +kernel⟩, by decide +kernel⟩
theorem witness_registers_apart :
    (3 : Reg) ≠ 15 ∧ (4 : Reg) ≠ 3 ∧ (4 : Reg) ≠ 15 := by decide
theorem witness_ShiftRightSendsTheLowBit_and_ShiftLeft :
    (4 : Reg) = (match (base []).config.shiftFlagDest with | .vy => 4 | .vf => 15) ∧
    (15 : Reg) = (match (withConfig { Config.default with shiftFlagDest := .vf } (base [])).config.shiftFlagDest with
      | .vy => 4 | .vf => 15) := by decide
theorem witness_SubIsAddOfTheComplement :
    (1 : Reg) ≠ 2 ∧ (1 : Reg) ≠ 15 ∧ (2 : Reg) ≠ 15 ∧ (base [(1, 5), (2, 7)]).reg 2 ≠ 0 ∧ (base [(1, 5)]).reg 2 = 0 ∧
    (∀ s, ∃ t, exec (.sub 1 2) s = .next t) ∧
    (∀ s : State, ∃ u, exec (.addRegReg 1 2) (s.setReg 2 (BitVec.ofNat 8 ((256 - (s.reg 2).toNat) % 256))) = .next u) :=
  ⟨by decide, by decide, by decide, by decide +kernel, by decide +kernel, fun _ => ⟨_, rfl⟩, fun _ => ⟨_, rfl⟩⟩
theorem witness_RegistersWrittenAreTheNamedOnes :
    (3 : Reg) ≠ 1 ∧ (3 : Reg) ≠ 15 ∧ (match (base []).config.shiftFlagDest with | .vy => (3 : Reg) ≠ 2 | .vf => (3 : Reg) ≠ 15) ∧
    (match (base []).config.indexFlagDest with | .vx => (3 : Reg) ≠ 1 | .vf => (3 : Reg) ≠ 15) ∧ (2 : Reg).toNat < (3 : Reg).toNat ∧
    ∀ i, ∃ t, exec i (base []) = .next t := ⟨by decide, by decide, show (3 : Reg) ≠ 2 by decide, show (3 : Reg) ≠ 1 by decide, by decide, fun i => exec_next _ i⟩
/-- A stack of 15 (one below the default depth), a stack of 16, and a stack of 16 with the unbounded depth. -/
theorem witness_CallSubPushesOrOverflows :
    (some 16 : Option Nat) ≠ some { base [] with stack := List.replicate 15 0 }.stack.length ∧
    { base [] with stack := List.replicate 16 0 }.config.stackDepth =
      some { base [] with stack := List.replicate 16 0 }.stack.length ∧
    (withConfig { Config.default with stackDepth := none } { base [] with stack := List.replicate 16 0 }).config.stackDepth ≠
      some { base [] with stack := List.replicate 16 0 }.stack.length := by decide +kernel
theorem witness_ReturnPopsOrUnderflows :
    { base [] with stack := [0x204] }.stack = [] ++ [0x204] ∧ (base []).stack = [] := by decide +kernel
theorem witness_ReturnUndoesCallSub :
    (base []).config.stackDepth ≠ some (base []).stack.length ∧
    ∃ t, exec (.callSub 0x300) (base []) = .next t ∧ (base [(1, 7)]).setReg 2 3 = (base [(1, 7)]).setReg 2 3 ∧ ∃ u : State, u.stack = t.stack :=
  ⟨by decide +kernel, _, rfl, rfl, _, rfl⟩
/-- A sum of 0xFFFF, the largest that fits; 0x10000, the smallest that does not, under each policy. -/
theorem witness_AddToIndexSumsAndFlags :
    (atIndex 0xFFF0 (base [(2, 0x0F)])).index.toNat + ((base [(2, 0x0F)]).reg 2).toNat ≤ 0xFFFF ∧
    (withConfig { Config.default with indexOverflow := .wrap } (base [])).config.indexOverflow = .wrap ∧
    0xFFFF < (atIndex 0xFFF0 (base [(2, 0x10)])).index.toNat + ((base [(2, 0x10)]).reg 2).toNat ∧
    (base []).config.indexOverflow = .fault := by decide +kernel
/-- The last three bytes of memory; the three just below the font region; the first above it; and the region itself under WRITE. -/
theorem witness_BcdWritesThreeDigits_writes :
    (base []).mem.wf (base []).config.fontData ∧ Writable (base []) 0xFFD 3 ∧ Writable (base []) 0x04D 3 ∧ Writable (base []) 0x0A0 3 ∧
    Writable (withConfig { Config.default with fontWrite := .write } (base [])) 0x050 3 := by
  unfold Writable; decide +kernel
/-- The first address out of range; the lowest and the highest `I` that reach the font region. -/
theorem witness_BcdWritesThreeDigits_faults :
    4096 ≤ (atIndex 0xFFE (base [])).indexAddr + 2 ∧ (base []).config.fontWrite = .fault ∧
    0x050 ≤ (atIndex 0x04E (base [])).indexAddr + 2 ∧ (atIndex 0x09F (base [])).indexAddr ≤ 0x09F ∧
    (atIndex 0x09F (base [])).indexAddr + 2 < 4096 := by decide +kernel
theorem witness_StoreWritesTheRegisters :
    (base []).mem.wf (base []).config.fontData ∧ Writable (base []) 0xFF0 16 ∧ Writable (base []) 0x04F 1 ∧
    4096 ≤ (atIndex 0xFF1 (base [])).indexAddr + 15 ∧ (base []).config.fontWrite = .fault ∧
    0x050 ≤ (atIndex 0x050 (base [])).indexAddr + 0 ∧ (atIndex 0x09F (base [])).indexAddr ≤ 0x09F ∧
    (atIndex 0x09F (base [])).indexAddr + 15 < 4096 := by unfold Writable; decide +kernel
theorem witness_LoadReadsTheRegisters :
    (atIndex 0xFFF (base [])).indexAddr + 0 < 4096 ∧ 4096 ≤ (atIndex 0xFFF (base [])).indexAddr + 1 := by decide +kernel
theorem witness_StoreThenLoadRestores :
    (base []).mem.wf (base []).config.fontData ∧ Writable (atIndex 0x400 (base [])) (atIndex 0x400 (base [])).indexAddr 3 ∧
    (∃ t u w, exec (.store 2) (atIndex 0x400 (base [(0, 0x11)])) = .next t ∧ u.config = t.config ∧ u.mem = t.mem ∧
      u.index = t.index ∧ exec (.load 2) u = .next w) :=
  ⟨by decide +kernel, by unfold Writable; decide +kernel, _, _, _, rfl, rfl, rfl, rfl, rfl⟩
theorem witness_OnlyStoreAndBcdWriteMemory :
    (∃ t, exec (.load 1) (base []) = .next t) ∧ (∀ x, Instr.load 1 ≠ .store x) ∧ (∀ x, Instr.load 1 ≠ .bcdConversion x) :=
  ⟨⟨_, rfl⟩, by simp, by simp⟩
/-- The fetch address is 0x300, once directly and once modulo 4096. -/
theorem witness_NextFetchSeesTheStore :
    (base []).mem.wf (base []).config.fontData ∧ Writable (atIndex 0x300 (base [])) (atIndex 0x300 (base [])).indexAddr 2 ∧
    1 ≤ (1 : Reg).toNat ∧ { atIndex 0x300 (base []) with pc := 0x300 }.pc.toNat % 4096 = (atIndex 0x300 (base [])).indexAddr ∧
    { atIndex 0x300 (base []) with pc := 0x1300 }.pc.toNat % 4096 = (atIndex 0x300 (base [])).indexAddr ∧
    ∃ t, exec (.store 1) { atIndex 0x300 (base []) with pc := 0x1300 } = .next t :=
  ⟨by decide +kernel, by unfold Writable; decide +kernel, by decide, by decide +kernel, by decide +kernel, _, rfl⟩
theorem witness_FontStaysImmutable :
    (base []).config.fontWrite = .fault ∧ (base []).mem.wf (base []).config.fontData ∧ FontIntact (base []) ∧
    ∃ t, step (base []) = .next t :=
  ⟨rfl, by decide +kernel, fun _ _ _ => rfl, step_next _⟩
/-- No row; rows that end with the last byte; rows that pass it, from inside and from outside the memory. -/
theorem witness_DisplayInvertsUnderTheSprite :
    (0 : Nibble) = 0 ∧ (atIndex 0xFF1 (base [])).indexAddr + (15 : Nibble).toNat ≤ 4096 ∧ (15 : Nibble) ≠ 0 ∧
    4096 ≤ (atIndex 0xFF2 (base [])).indexAddr + (15 : Nibble).toNat - 1 ∧
    4096 ≤ (atIndex 0x1000 (base [])).indexAddr + (1 : Nibble).toNat - 1 := by decide +kernel
theorem witness_DrawingTwiceRestores :
    (atIndex 0x050 (base [])).indexAddr + (5 : Nibble).toNat ≤ 4096 ∧
    ∃ t w, exec (.display 6 7 5) (atIndex 0x050 (base [])) = .next t ∧ t.index = (atIndex 0x050 (base [])).index ∧
      (∀ a, t.readByte a = (atIndex 0x050 (base [])).readByte a) ∧
      (t.reg 6).toNat % 64 = ((atIndex 0x050 (base [])).reg 6).toNat % 64 ∧
      (t.reg 7).toNat % 32 = ((atIndex 0x050 (base [])).reg 7).toNat % 32 ∧ exec (.display 6 7 5) t = .next w := by
  refine ⟨by decide +kernel, _, _, rfl, ?_, fun a => ?_, ?_, ?_, rfl⟩
  · rfl
  · rfl
  · decide +kernel
  · decide +kernel
theorem witness_TimerReadIsTheClosedForm :
    0 < 1000 ∧ ((0 :: ([999, 1000, 3500] ++ [4000])) : List Nat).Pairwise (· ≤ ·) := by decide
/-- A delay timer set to 10 at time 0, and a GetDelayTimer step 3500 units later. -/
theorem witness_DelayTimerCountsAcrossSteps :
    let s := ready 0xF107 (given (draw 3500 0 [] none) { base [] with dt := { val := 0x0A, ref := 0 } })
    0 < s.config.tick ∧ s.dt.ref ≤ s.input.now ∧
    (∀ u, s.input.now ≤ u → (s.dt.valueAt s.config.tick u).toNat = (0x0A : Byte).toNat - (u - 0) / s.config.tick) ∧
    (∃ t, step s = .next t) ∧ s.mode = .run ∧ decode s.config.strictDecode s.nextWord = .known (.getDelayTimer 1) ∧
    (∀ x, s.mode = .run → decode s.config.strictDecode s.nextWord ≠ .known (.setDelayTimer x)) := by
  intro s
  have hd : decode s.config.strictDecode s.nextWord = .known (.getDelayTimer 1) := by decide +kernel
  refine ⟨by decide +kernel, by decide +kernel, fun u _ => Timer.valueAt_toNat _ _ _, step_next _, rfl, hd, fun x _ => ?_⟩
  rw [hd]
  simp
theorem witness_SoundOutputFollowsTheLastSet :
    (∃ t, exec (.setSoundTimer 3) (base [(3, 2)]) = .next t) ∧ (∃ t, step State.reset = .next t) ∧ State.reset.mode ≠ .run :=
  ⟨⟨_, rfl⟩, ⟨_, rfl⟩, by decide⟩
/-- Key 15, the highest, and 16, the lowest that is no key, under each policy. -/
theorem witness_KeySkipsReadTheHeldSet :
    ((base [(2, 15)]).reg 2).toNat < 16 ∧ 15 < ((base [(2, 16)]).reg 2).toNat ∧ (base [(2, 16)]).config.keyRange = .fault ∧
    (withConfig { Config.default with keyRange := .notPressed } (base [(2, 16)])).config.keyRange = .notPressed := by decide +kernel
theorem witness_KeyPressCompletesTheWait :
    { base [] with mode := .waitKey }.mode = .waitKey ∧
    (given (draw 0 0 [] (some 15)) { base [] with mode := .waitKey }).nextDraw.keyPress = some 15 ∧
    (given (draw 0 0 [5] none) { base [] with mode := .waitKey }).nextDraw.keyPress = none := by decide +kernel
theorem witness_UnknownWordFaults :
    (ready 0x5121 (base [])).mode = .run ∧
    decode (ready 0x5121 (base [])).config.strictDecode (ready 0x5121 (base [])).nextWord = .unknown 0x5121 := by decide +kernel
theorem witness_FaultPerformsNoWrite :
    (base []).mode ≠ .faulted ∧ ∃ t, exec .ret (base []) = .next t ∧ t.mode = .faulted := ⟨by decide +kernel, _, rfl, rfl⟩
theorem witness_FaultedAndIdleHaveNoStep :
    (after 0x00EE (base [])).mode = .faulted ∧ State.reset.mode = .idle ∧ (∃ t, runSteps 3 (after 0x00EE (base [])) = .next t) ∧
    ∃ t, runSteps 3 State.reset = .next t := ⟨by decide +kernel, rfl, ⟨_, rfl⟩, _, rfl⟩
theorem witness_ModeChangesOnlyAsNamed :
    (∀ s, ∃ t, step s = .next t) ∧ (base []).mode = .run ∧ { base [] with mode := .waitKey }.mode = .waitKey ∧
    (after 0x00EE (base [])).mode = .faulted ∧ State.reset.mode = .idle :=
  ⟨step_next, by decide +kernel, rfl, by decide +kernel, rfl⟩
theorem witness_EachPieceHasItsWriters :
    (∃ t, exec (.set 1 2) (base []) = .next t) ∧ (∀ a, Instr.set 1 2 ≠ .setIndex a) ∧ (∀ x, Instr.set 1 2 ≠ .addToIndex x) ∧
    (∀ x, Instr.set 1 2 ≠ .setIndexToFontLocation x) ∧ (∀ a, Instr.set 1 2 ≠ .callSub a) ∧ Instr.set 1 2 ≠ .ret ∧
    (∀ x, Instr.set 1 2 ≠ .getDelayTimer x) ∧ (∀ x, Instr.set 1 2 ≠ .setDelayTimer x) ∧ (∀ x, Instr.set 1 2 ≠ .setSoundTimer x) ∧
    Instr.set 1 2 ≠ .clearScreen ∧ (∀ x y n, Instr.set 1 2 ≠ .display x y n) ∧ (∀ x, Instr.set 1 2 ≠ .waitForKey x) :=
  ⟨⟨_, rfl⟩, by simp⟩
/-- Random's byte, the timers' time and the key skips' held set kept, every other input changed. -/
theorem witness_EachInstructionUsesItsOneInput :
    ({ now := 9, randByte := 0, keysHeld := Vector.replicate 16 true, keyPress := some 3 } : Inputs).randByte =
      (base []).input.randByte ∧
    ({ now := 0, randByte := 7, keysHeld := Vector.replicate 16 true, keyPress := some 3 } : Inputs).now = (base []).input.now ∧
    ({ now := 9, randByte := 7, keysHeld := Vector.replicate 16 false, keyPress := some 3 } : Inputs).keysHeld =
      (base []).input.keysHeld := by decide +kernel
theorem witness_RomLoadCopiesVerbatim :
    State.reset.mode = .idle ∧ (List.replicate 3584 (0xAA : Byte)).length ≤ 3584 ∧ ([] : List Byte).length ≤ 3584 ∧
    State.reset.mem.wf State.reset.config.fontData := ⟨rfl, by rw [List.length_replicate], by decide, Memory.nil_wf⟩
theorem witness_RomLoadRefusals :
    State.reset.mode = .idle ∧ 3584 < (List.replicate 3585 (0xAA : Byte)).length ∧ (base []).mode ≠ .idle :=
  ⟨rfl, by rw [List.length_replicate]; decide, by decide +kernel⟩
theorem witness_RomRunsFromItsFirstWord :
    ∃ s, (State.resetWith Config.default 0).loadRom (0x12 :: 0x00 :: []) = .ok s := ⟨_, rfl⟩
theorem witness_StepKeepsInv : Inv State.reset ∧ Inv (base []) ∧ (∃ t, step State.reset = .next t) ∧ ∃ t, step (base []) = .next t :=
  ⟨⟨Memory.nil_wf, fun _ _ => Nat.zero_le _, Nat.le_refl _, Nat.le_refl _, by decide⟩,
   ⟨Memory.nil_wf, fun _ _ => Nat.zero_le _, Nat.le_refl _, Nat.le_refl _, by decide +kernel⟩, step_next _, step_next _⟩
theorem witness_ReachableStatesAreSound :
    Reachable State.reset ∧ (∃ s, State.reset.loadRom [0x12, 0x00] = .ok s ∧ Reachable s) ∧ State.reset.config.fontWrite = .fault :=
  ⟨.reset Config.default 0 (by decide), ⟨_, rfl, .load [0x12, 0x00] (.reset Config.default 0 (by decide)) rfl⟩, rfl⟩

end Sys2Proof.Tests
end

section
/-! Memory (20_memory): what a fetch reads, and what it leaves unchanged. -/

namespace Sys2Proof

/-- A word's value is its bytes' value in big-endian order (R68). -/
theorem toNat_wordOfBytes (hi lo : Byte) : (wordOfBytes hi lo).toNat = 256 * hi.toNat + lo.toNat := by
  rw [wordOfBytes, BitVec.toNat_append, ← Nat.shiftLeft_add_eq_or_of_lt lo.isLt, Nat.shiftLeft_eq, Nat.mul_comm]

end Sys2Proof

namespace Sys2Proof.Machine

/-- Settles O6: the fetched word by its bytes' value (`toNat_wordOfBytes`), the rest by the equations of `State.fetch`. -/
theorem fetchIsBigEndianModulo4096 : Obligations.FetchIsBigEndianModulo4096 := by
  intro s
  refine ⟨?word, ?pc, s.fetch_curAddr, ?frame⟩
  case word => rw [State.fetch_curWord, toNat_wordOfBytes, memSize]
  case pc => simp only [State.fetch_pc, BitVec.toNat_add, BitVec.reduceToNat]
  case frame => rfl

end Sys2Proof.Machine
end

section
/-! Encoding (30_encoding): the word of an instruction, decoded. -/

namespace Sys2Proof.Machine

/-- An instruction's own word decodes to it (R93, R102): the family nibble selects the line of `decode`, the low nibble or byte the
line of the family, and the fields are the operands that were encoded. -/
theorem isWordOf_encode (i : Instr) : IsWordOf (encode i) i := by
  intro strict
  cases i
  case clearScreen | ret => cases strict <;> decide
  case jump | callSub | setIndex | jumpWithOffset => simp [encode, decode]
  case skipEq | skipNEq | set | add | random | display => simp [encode, decode]
  case skipRegEq | skipRegNEq => simp [encode, decode, decodeRR]
  case loadRegReg | or | and | xor | addRegReg | sub | shiftRight | subNeg | shiftLeft =>
    simp [encode, decode, decodeFamily8]
  case skipIfPressed | skipIfNotPressed => simp [encode, decode, decodeFamilyE]
  case getDelayTimer | waitForKey | setDelayTimer | setSoundTimer | addToIndex | setIndexToFontLocation | bcdConversion | store |
      load =>
    simp [encode, decode, decodeFamilyF]

end Sys2Proof.Machine
end

section
/-! Control transfer (41_control): jumps and compare skips. -/

namespace Sys2Proof.Machine

/-- The 12-bit operand keeps its value as a 16-bit address (R89). -/
@[simp] theorem zextAddr_toNat (nnn : Addr) : (zextAddr nnn).toNat = nnn.toNat :=
  BitVec.toNat_setWidth_of_le (by decide)

/-- A skip's `pc` as a number (R113). -/
theorem State.skipIf_pc_toNat (s : State) (c : Bool) :
    (s.skipIf c).pc.toNat = if c = true then (s.pc.toNat + 2) % 2 ^ 16 else s.pc.toNat := by
  simp only [State.skipIf_pc, apply_ite BitVec.toNat, BitVec.toNat_add, BitVec.reduceToNat]

/-- Settles O18: the jump writes `pc` alone (R123), and widening the operand keeps its value. -/
theorem jumpSetsThePc : Obligations.JumpSetsThePc := fun nnn s =>
  ⟨isWordOf_encode (.jump nnn), s.jumpTo (zextAddr nnn), rfl, zextAddr_toNat nnn, rfl⟩

/-- Settles O23: each of the four is a `skipIf` on its comparison, which writes `pc` alone (`State.skipIf_eq`). -/
theorem compareSkipsMoveThePc : Obligations.CompareSkipsMoveThePc := by
  refine ⟨fun x nn s => ⟨⟨isWordOf_encode (.skipEq x nn), isWordOf_encode (.skipNEq x nn)⟩,
      ⟨_, rfl, s.skipIf_eq _, ?skipEq⟩, _, rfl, s.skipIf_eq _, ?skipNEq⟩,
    fun x y s => ⟨⟨isWordOf_encode (.skipRegEq x y), isWordOf_encode (.skipRegNEq x y)⟩,
      ⟨_, rfl, s.skipIf_eq _, ?skipRegEq⟩, _, rfl, s.skipIf_eq _, ?skipRegNEq⟩⟩
  case skipEq | skipRegEq => simp only [State.skipIf_pc_toNat, beq_iff_eq]
  case skipNEq | skipRegNEq => simp only [State.skipIf_pc_toNat, bne_iff_ne, ite_not]

end Sys2Proof.Machine
end

section
/-! Registers and ALU (42_register_alu): what each operation writes to `V[x]` and to its flag. The frames are `State.setReg` and
`State.setRegFlag`, which write registers alone. -/

namespace Sys2Proof.Machine

/-! ### Flags and difference as numbers (R38) -/

/-- The carry of a sum (R136). -/
theorem flagByte_carryOut_toNat (a b : Byte) :
    (flagByte (carryOut a b)).toNat = if 255 < a.toNat + b.toNat then 1 else 0 := by
  simp only [flagByte_toNat, carryOut, decide_eq_true_eq]

/-- No borrow of a difference (R137, R139). -/
theorem flagByte_noBorrow_toNat (a b : Byte) :
    (flagByte (noBorrow a b)).toNat = if a.toNat ≥ b.toNat then 1 else 0 := by
  simp only [flagByte_toNat, noBorrow, decide_eq_true_eq, ge_iff_le]

/-- The bit ShiftRight moves out is the operand's remainder by 2 (R138). -/
theorem flagByte_shiftedOutRight_toNat (a : Byte) : (flagByte (shiftedOutRight a)).toNat = a.toNat % 2 := by
  simp only [flagByte_toNat, shiftedOutRight, BitVec.getLsbD, Nat.testBit_zero, decide_eq_true_eq]
  split <;> omega

/-- The bit ShiftLeft moves out is the operand's quotient by 128 (R140). -/
theorem flagByte_shiftedOutLeft_toNat (a : Byte) : (flagByte (shiftedOutLeft a)).toNat = a.toNat / 128 := by
  have ha := a.isLt
  simp only [flagByte_toNat, shiftedOutLeft, BitVec.getLsbD, Nat.testBit_eq_decide_div_mod_eq, decide_eq_true_eq]
  split <;> omega

/-- A difference is taken modulo 256 (R137, R139). -/
theorem byte_sub_toNat (a b : Byte) : (a - b).toNat = (a.toNat + 256 - b.toNat) % 256 := by
  rw [BitVec.toNat_sub]
  have hb := b.isLt
  omega

/-! ### Operations with no flag -/

/-- Settles O8: the meaning is one register write. -/
theorem setWritesTheImmediate : Obligations.SetWritesTheImmediate := fun x nn s =>
  ⟨isWordOf_encode (.set x nn), s.setReg x nn, rfl, s.reg_setReg_self x nn, fun _ => s.reg_setReg_ne nn, rfl⟩

/-- Settles O9: one register write, of a sum of bytes, which is taken modulo 256. -/
theorem addWrapsAndSetsNoFlag : Obligations.AddWrapsAndSetsNoFlag := fun x nn s =>
  ⟨isWordOf_encode (.add x nn), s.setReg x (s.reg x + nn), rfl,
    by rw [State.reg_setReg_self, BitVec.toNat_add], fun _ => s.reg_setReg_ne _, rfl⟩

/-- Settles O10: each of the four is one register write, whose value's bits are those of the operation. -/
theorem copyAndBitwiseSetNoFlag : Obligations.CopyAndBitwiseSetNoFlag := by
  intro x y s
  refine ⟨⟨isWordOf_encode (.loadRegReg x y), isWordOf_encode (.or x y), isWordOf_encode (.and x y), isWordOf_encode (.xor x y)⟩,
    ⟨_, rfl, s.reg_setReg_self x _, fun _ => s.reg_setReg_ne _, rfl⟩,
    ⟨_, rfl, fun b => ?or, fun _ => s.reg_setReg_ne _, rfl⟩,
    ⟨_, rfl, fun b => ?and, fun _ => s.reg_setReg_ne _, rfl⟩,
    ⟨_, rfl, fun b => ?xor, fun _ => s.reg_setReg_ne _, rfl⟩⟩
  case or => rw [State.reg_setReg_self, BitVec.getLsbD_or]
  case and => rw [State.reg_setReg_self, BitVec.getLsbD_and]
  case xor => rw [State.reg_setReg_self, BitVec.getLsbD_xor]

/-- Settles O15: one register write, of the drawn byte and the mask. -/
theorem randomMasksTheDraw : Obligations.RandomMasksTheDraw := fun x nn s =>
  ⟨isWordOf_encode (.random x nn), s.setReg x (s.input.randByte &&& nn), rfl,
    fun b => by rw [State.reg_setReg_self, BitVec.getLsbD_and], fun _ => s.reg_setReg_ne _, rfl⟩

/-! ### Operations with a flag: the result, then the flag (R117) -/

/-- Settles O11: the flag is the carry (`flagByte_carryOut_toNat`), the result a sum of bytes. -/
theorem addRegRegSumsThenCarries : Obligations.AddRegRegSumsThenCarries := by
  refine fun x y s => ⟨isWordOf_encode (.addRegReg x y),
    s.setRegFlag x (s.reg x + s.reg y) 15 (carryOut (s.reg x) (s.reg y)), rfl, ?carry, fun hx => ?sum,
    fun _ => s.reg_setRegFlag_other _ _, rfl⟩
  case carry => rw [State.reg_setRegFlag_flag, flagByte_carryOut_toNat]
  case sum => rw [s.reg_setRegFlag_result _ _ hx, BitVec.toNat_add]

/-- Settles O12: the flag is the absence of a borrow (`flagByte_noBorrow_toNat`), the result a difference of bytes. -/
theorem subAndSubNegReportNoBorrow : Obligations.SubAndSubNegReportNoBorrow := by
  refine fun x y s => ⟨⟨isWordOf_encode (.sub x y), isWordOf_encode (.subNeg x y)⟩,
    ⟨s.setRegFlag x (s.reg x - s.reg y) 15 (noBorrow (s.reg x) (s.reg y)), rfl, ?subFlag, fun hx => ?subResult,
      fun _ => s.reg_setRegFlag_other _ _, rfl⟩,
    ⟨s.setRegFlag x (s.reg y - s.reg x) 15 (noBorrow (s.reg y) (s.reg x)), rfl, ?subNegFlag, fun hx => ?subNegResult,
      fun _ => s.reg_setRegFlag_other _ _, rfl⟩⟩
  case subFlag | subNegFlag => rw [State.reg_setRegFlag_flag, flagByte_noBorrow_toNat]
  case subResult | subNegResult => rw [s.reg_setRegFlag_result _ _ hx, byte_sub_toNat]

/-- Settles O13: the flag register is `shiftFlagReg`, the flag the operand's remainder, the result its half. -/
theorem shiftRightSendsTheLowBit : Obligations.ShiftRightSendsTheLowBit := by
  refine fun x y s => ⟨isWordOf_encode (.shiftRight x y), fun f hf => ?_⟩
  obtain rfl : f = shiftFlagReg s.config y := hf
  refine ⟨_, rfl, ?flag, fun hx => ?result, fun _ => s.reg_setRegFlag_other _ _, rfl⟩
  case flag => rw [State.reg_setRegFlag_flag, flagByte_shiftedOutRight_toNat]
  case result => rw [s.reg_setRegFlag_result _ _ hx, BitVec.toNat_ushiftRight, Nat.shiftRight_eq_div_pow, Nat.pow_one]

/-- Settles O14: the flag register is `shiftFlagReg`, the flag the operand's high bit, the result its double. -/
theorem shiftLeftSendsTheHighBit : Obligations.ShiftLeftSendsTheHighBit := by
  refine fun x y s => ⟨isWordOf_encode (.shiftLeft x y), fun f hf => ?_⟩
  obtain rfl : f = shiftFlagReg s.config y := hf
  refine ⟨_, rfl, ?flag, fun hx => ?result, fun _ => s.reg_setRegFlag_other _ _, rfl⟩
  case flag => rw [State.reg_setRegFlag_flag, flagByte_shiftedOutLeft_toNat]
  case result => rw [s.reg_setRegFlag_result _ _ hx, BitVec.toNat_shiftLeft, Nat.shiftLeft_eq, Nat.pow_one, Nat.mul_comm]

end Sys2Proof.Machine
end

section
/-! Index register and memory (43_index_memory): what the index register is set to. -/

namespace Sys2Proof.Machine

/-- Settles O24: the address is zero-extended into the index register, so it is the same number there (`zextAddr_toNat`). -/
theorem setIndexSetsTheIndex : Obligations.SetIndexSetsTheIndex := fun nnn s =>
  ⟨isWordOf_encode (.setIndex nnn), { s with index := zextAddr nnn }, rfl, zextAddr_toNat nnn, rfl⟩

end Sys2Proof.Machine
end

section
/-! Display (44_display): what ClearScreen leaves in the framebuffer. -/

namespace Sys2Proof.Machine

/-- Settles O35: the framebuffer alone is replaced, by the clear one, whose every pixel is false (`Framebuffer.pixel_clear`). -/
theorem clearScreenClears : Obligations.ClearScreenClears :=
  ⟨isWordOf_encode .clearScreen, fun s => ⟨{ s with fb := Framebuffer.clear }, rfl, Framebuffer.pixel_clear, rfl⟩⟩

end Sys2Proof.Machine
end

section
/-! Timers (45_timers): what a read stores and what a set stores. -/

namespace Sys2Proof.Machine

/-- Settles O38: the meaning is one register write, of the value read (`Timer.valueAt_toNat`), over the timer after the read. -/
theorem getDelayTimerReads : Obligations.GetDelayTimerReads := by
  intro x s
  refine ⟨isWordOf_encode (.getDelayTimer x), _, rfl, ?value, ?stored, s.dt.afterGet_ref _ _,
    fun _ => State.reg_setReg_ne _ _, rfl⟩
  case value => rw [State.reg_setReg_self, Timer.valueAt_toNat]
  case stored => rw [State.reg_setReg_self, State.setReg_dt, Timer.afterGet_val]

/-- Settles O39: each meaning replaces its own timer by `Timer.setAt` of `V[x]` at the step's time, and nothing else. -/
theorem setTimersStoreValueAndTime : Obligations.SetTimersStoreValueAndTime := fun x _ =>
  ⟨⟨isWordOf_encode (.setDelayTimer x), isWordOf_encode (.setSoundTimer x)⟩, rfl, rfl⟩

end Sys2Proof.Machine
end

section
/-! Encoding (30_encoding): the word put together again from its fields, and what the decoder gives for which words. -/

namespace Sys2Proof

/-! ### A word is its fields (R88) -/

/-- Two neighbouring bit fields of a word are one field. -/
theorem extract_append_extract (w : Word) (start low high : Nat) :
    w.extractLsb' (start + low) high ++ w.extractLsb' start low = w.extractLsb' start (high + low) :=
  BitVec.extractLsb'_append_extractLsb'_eq_extractLsb' rfl

/-- Format A: family and address. -/
theorem encodeA_fields (w : Word) : encodeA (fieldF w) (fieldNNN w) = w :=
  (extract_append_extract w 0 12 4).trans BitVec.extractLsb'_eq_self

/-- Formats RI and R: family, `x` and low byte. -/
theorem encodeRI_fields (w : Word) : encodeRI (fieldF w) (fieldX w) (fieldNN w) = w := by
  have hx : fieldF w ++ fieldX w = w.extractLsb' 8 8 := extract_append_extract w 8 4 4
  rw [encodeRI, hx]
  exact (extract_append_extract w 0 8 8).trans BitVec.extractLsb'_eq_self

/-- Formats RR, ALU and RRN: family, `x`, `y` and low nibble. -/
theorem encodeRRN_fields (w : Word) : encodeRRN (fieldF w) (fieldX w) (fieldY w) (fieldN w) = w := by
  have hx : fieldF w ++ fieldX w = w.extractLsb' 8 8 := extract_append_extract w 8 4 4
  have hy : w.extractLsb' 8 8 ++ fieldY w = w.extractLsb' 4 12 := extract_append_extract w 4 4 8
  rw [encodeRRN, hx, hy]
  exact (extract_append_extract w 0 4 12).trans BitVec.extractLsb'_eq_self

/-- A word is the one with these fields exactly if they are its fields. -/
theorem eq_encodeRI_iff {w : Word} {f : Nibble} {x : Reg} {nn : Byte} :
    w = encodeRI f x nn ↔ fieldF w = f ∧ fieldX w = x ∧ fieldNN w = nn := by
  constructor
  · rintro rfl
    exact ⟨fieldF_encodeRI f x nn, fieldX_encodeRI f x nn, fieldNN_encodeRI f x nn⟩
  · rintro ⟨rfl, rfl, rfl⟩
    exact (encodeRI_fields w).symm

/-! ### The decoder, read backwards (R93, R101) -/

/-- What a decoded value says of the word `w` it came from: under strict decoding the instruction's own word is `w`; an Unknown value
carries `w`. -/
def Decoded.Describes (strict : Bool) (w : Word) : Decoded → Prop
  | .known i => strict = true → encode i = w
  | .unknown u => u = w

/-- Family 0: with STRICT_DECODE the whole word selects (R96). -/
theorem decodeFamily0_describes (strict : Bool) {w : Word} (hf : fieldF w = 0x0) :
    (decodeFamily0 strict w).Describes strict w := by
  unfold decodeFamily0
  split_ifs with h1 h2
  · exact fun hs => (eq_encodeRI_iff.2 ⟨hf, h1.2.resolve_right (by simp [hs]), h1.1⟩).symm
  · exact fun hs => (eq_encodeRI_iff.2 ⟨hf, h2.2.resolve_right (by simp [hs]), h2.1⟩).symm
  · rfl

/-- Families 5 and 9: with STRICT_DECODE the low nibble is 0 (R99). -/
theorem decodeRR_describes (strict : Bool) {w : Word} {f : Nibble} (hf : fieldF w = f) (i : Reg → Reg → Instr)
    (hi : ∀ x y, encode (i x y) = encodeRRN f x y 0x0) : (decodeRR strict w i).Describes strict w := by
  unfold decodeRR
  split_ifs with h
  · intro hs
    have hn : fieldN w = 0x0 := h.resolve_right (by simp [hs])
    rw [hi, ← hf, ← hn, encodeRRN_fields]
  · rfl

/-- Family 8: the low nibble selects (R97). -/
theorem decodeFamily8_describes (strict : Bool) {w : Word} (hf : fieldF w = 0x8) : (decodeFamily8 w).Describes strict w := by
  have hw := hf ▸ encodeRRN_fields w
  unfold decodeFamily8
  split
  case h_10 => rfl
  all_goals
    rename_i hn
    rw [hn] at hw
    exact fun _ => hw

/-- Family E: the low byte selects (R98). -/
theorem decodeFamilyE_describes (strict : Bool) {w : Word} (hf : fieldF w = 0xE) : (decodeFamilyE w).Describes strict w := by
  have hw := hf ▸ encodeRI_fields w
  unfold decodeFamilyE
  split
  case h_3 => rfl
  all_goals
    rename_i hn
    rw [hn] at hw
    exact fun _ => hw

/-- Family F: the low byte selects (R98). -/
theorem decodeFamilyF_describes (strict : Bool) {w : Word} (hf : fieldF w = 0xF) : (decodeFamilyF w).Describes strict w := by
  have hw := hf ▸ encodeRI_fields w
  unfold decodeFamilyF
  split
  case h_10 => rfl
  all_goals
    rename_i hn
    rw [hn] at hw
    exact fun _ => hw

/-- Every decoded value describes its word: the family nibble selects, and the operands are the word's own fields (R102). -/
theorem decode_describes (strict : Bool) (w : Word) : (decode strict w).Describes strict w := by
  have hA := encodeA_fields w
  have hRI := encodeRI_fields w
  have hRRN := encodeRRN_fields w
  unfold decode
  split <;> rename_i hf
  case h_1 => exact decodeFamily0_describes strict hf
  case h_6 => exact decodeRR_describes strict hf _ fun _ _ => rfl
  case h_9 => exact decodeFamily8_describes strict hf
  case h_10 => exact decodeRR_describes strict hf _ fun _ _ => rfl
  case h_15 => exact decodeFamilyE_describes strict hf
  case h_16 => exact decodeFamilyF_describes strict hf
  case h_17 => rfl
  case h_2 | h_3 | h_11 | h_12 => rw [hf] at hA; exact fun _ => hA
  case h_4 | h_5 | h_7 | h_8 | h_13 => rw [hf] at hRI; exact fun _ => hRI
  case h_14 => rw [hf] at hRRN; exact fun _ => hRRN

/-- The word of every instruction lies in its row of the opcode table (R93). -/
theorem matchesRow_encode (i : Instr) : i.matchesRow (encode i) = true := by
  cases i
  exacts [Laws.EncodedInRow.clearScreen, Laws.EncodedInRow.ret, Laws.EncodedInRow.jump _, Laws.EncodedInRow.callSub _,
    Laws.EncodedInRow.skipEq _ _, Laws.EncodedInRow.skipNEq _ _, Laws.EncodedInRow.skipRegEq _ _, Laws.EncodedInRow.set _ _,
    Laws.EncodedInRow.add _ _, Laws.EncodedInRow.loadRegReg _ _, Laws.EncodedInRow.or _ _, Laws.EncodedInRow.and _ _,
    Laws.EncodedInRow.xor _ _, Laws.EncodedInRow.addRegReg _ _, Laws.EncodedInRow.sub _ _, Laws.EncodedInRow.shiftRight _ _,
    Laws.EncodedInRow.subNeg _ _, Laws.EncodedInRow.shiftLeft _ _, Laws.EncodedInRow.skipRegNEq _ _,
    Laws.EncodedInRow.setIndex _, Laws.EncodedInRow.jumpWithOffset _, Laws.EncodedInRow.random _ _,
    Laws.EncodedInRow.display _ _ _, Laws.EncodedInRow.skipIfPressed _, Laws.EncodedInRow.skipIfNotPressed _,
    Laws.EncodedInRow.getDelayTimer _, Laws.EncodedInRow.waitForKey _, Laws.EncodedInRow.setDelayTimer _,
    Laws.EncodedInRow.setSoundTimer _, Laws.EncodedInRow.addToIndex _, Laws.EncodedInRow.setIndexToFontLocation _,
    Laws.EncodedInRow.bcdConversion _, Laws.EncodedInRow.store _, Laws.EncodedInRow.load _]

/-- An Unknown value carries the word decoded (R101). -/
theorem eq_of_decode_unknown {strict : Bool} {w u : Word} (h : decode strict w = .unknown u) : u = w := by
  have := decode_describes strict w
  rwa [h] at this

/-- The strict decoder gives an instruction for its own word alone (R93). -/
theorem decode_strict_iff (w : Word) (i : Instr) : decode true w = .known i ↔ encode i = w := by
  refine ⟨fun h => ?_, fun h => h ▸ Machine.isWordOf_encode i true⟩
  have := decode_describes true w
  rw [h] at this
  exact this rfl

end Sys2Proof

namespace Sys2Proof.Machine

/-- Settles O2: whatever STRICT_DECODE is, by `isWordOf_encode`. -/
theorem encodeThenDecodeGivesBack : Obligations.EncodeThenDecodeGivesBack := fun strict i => isWordOf_encode i strict

/-- Settles O3: the decoded value describes its word (`decode_describes`), and an encoded word lies in its row. -/
theorem strictDecodeIsTheOpcodeTable : Obligations.StrictDecodeIsTheOpcodeTable :=
  ⟨decode_strict_iff, fun w i h => (decode_strict_iff w i).1 h ▸ matchesRow_encode i, fun _ _ _ => eq_of_decode_unknown⟩

/-- Settles O4: family 0 selects by its fields, which are those of the whole word (`eq_encodeRI_iff`); families 5 and 9 are `decodeRR`; no other
line of the decoder reads STRICT_DECODE. -/
theorem strictDecodeGovernsFamilies059 : Obligations.StrictDecodeGovernsFamilies059 := by
  intro strict w
  refine ⟨fun hf => ?family0, fun hf => ?family5, fun hf => ?family9, fun h0 h5 h9 => ?other⟩
  case family0 =>
    have hE0 : w = 0x00E0 ↔ fieldF w = 0x0 ∧ fieldX w = 0 ∧ fieldNN w = 0xE0 := eq_encodeRI_iff (f := 0) (x := 0) (nn := 0xE0)
    have hEE : w = 0x00EE ↔ fieldF w = 0x0 ∧ fieldX w = 0 ∧ fieldNN w = 0xEE := eq_encodeRI_iff (f := 0) (x := 0) (nn := 0xEE)
    have e : decode strict w = decodeFamily0 strict w := by rw [decode, hf]; rfl
    rw [e, decodeFamily0]
    grind
  case family5 => rw [decode, hf]; rfl
  case family9 => rw [decode, hf]; rfl
  case other =>
    unfold decode
    split
    case h_1 h => exact absurd h h0
    case h_6 h => exact absurd h h5
    case h_10 h => exact absurd h h9
    all_goals rfl

end Sys2Proof.Machine
end

section
/-! The pieces of state (10_state): which of them an instruction may write, and what a fault leaves. -/

namespace Sys2Proof.Machine

/-! ### What an instruction can do: fault, or write its own pieces (R116) -/

/-- `s` with the pieces that the rule of `i` writes taken from `t`; WaitForKey's are known outright (R170). -/
def Instr.footprint (i : Instr) (s t : State) : State :=
  match i with
  | .clearScreen => { s with fb := t.fb }
  | .display _ _ _ => { s with fb := t.fb, v := t.v }
  | .ret | .callSub _ => { s with pc := t.pc, stack := t.stack }
  | .jump _ | .jumpWithOffset _ | .skipEq _ _ | .skipNEq _ _ | .skipRegEq _ _ | .skipRegNEq _ _ | .skipIfPressed _
  | .skipIfNotPressed _ => { s with pc := t.pc }
  | .set _ _ | .add _ _ | .loadRegReg _ _ | .or _ _ | .and _ _ | .xor _ _ | .addRegReg _ _ | .sub _ _ | .shiftRight _ _
  | .subNeg _ _ | .shiftLeft _ _ | .random _ _ | .load _ => { s with v := t.v }
  | .setIndex _ | .setIndexToFontLocation _ => { s with index := t.index }
  | .addToIndex _ => { s with index := t.index, v := t.v }
  | .bcdConversion _ | .store _ => { s with mem := t.mem }
  | .getDelayTimer _ => { s with dt := t.dt, v := t.v }
  | .setDelayTimer _ => { s with dt := t.dt }
  | .setSoundTimer _ => { s with st := t.st }
  | .waitForKey x => { s with mode := .waitKey, waitX := x }

/-- A checked effect inside the footprint: the fault, or a state inside the footprint. -/
theorem State.raiseOr_footprint {i : Instr} {s t : State} (c : Option FaultReason) (ht : t = Instr.footprint i s t) :
    (∃ r, s.raiseOr c t = s.raise r) ∨ s.raiseOr c t = Instr.footprint i s (s.raiseOr c t) := by
  cases c with
  | none => exact .inr ht
  | some r => exact .inl ⟨r, rfl⟩

/-- What an instruction can do: raise a fault, and then nothing else, or write the pieces of its footprint alone. -/
theorem exec_cases {i : Instr} {s t : State} (h : exec i s = .next t) :
    (∃ r, t = s.raise r) ∨ t = Instr.footprint i s t := by
  cases i <;> injection h with h <;> subst h
  case ret =>
    cases s.stack.getLast? with
    | none => exact .inl ⟨_, rfl⟩
    | some r => exact .inr rfl
  case skipEq | skipNEq | skipRegEq | skipRegNEq => exact .inr (s.skipIf_eq _)
  case skipIfPressed | skipIfNotPressed => exact State.raiseOr_footprint _ (s.skipIf_eq _)
  case addToIndex =>
    refine State.raiseOr_footprint _ ?_
    rw [Instr.footprint, State.addIndex_index]
    exact s.addIndex_eq _ _
  case callSub | display | bcdConversion | store | load => exact State.raiseOr_footprint _ rfl
  all_goals exact .inr rfl

/-- A reading that neither a fault nor the footprint changes is as before. -/
theorem exec_reading {α : Type} (f : State → α) {i : Instr} {s t : State} (h : exec i s = .next t)
    (hr : ∀ r, f (s.raise r) = f s) (hf : ∀ u, f (Instr.footprint i s u) = f s) : f t = f s := by
  rcases exec_cases h with ⟨r, rfl⟩ | e
  · exact hr r
  · rw [e, hf]

section
variable {i : Instr} {s t : State} (h : exec i s = .next t)
include h

/-- Only Store and BCDConversion write memory (R67). -/
theorem exec_mem (h1 : ∀ x, i ≠ .store x) (h2 : ∀ x, i ≠ .bcdConversion x) : t.mem = s.mem := by
  refine exec_reading State.mem h (fun _ => rfl) fun u => ?_
  cases i
  case store x => exact absurd rfl (h1 x)
  case bcdConversion x => exact absurd rfl (h2 x)
  all_goals rfl

/-- Only SetIndex, AddToIndex and SetIndexToFontLocation write `I` (R31). -/
theorem exec_index (h1 : ∀ a, i ≠ .setIndex a) (h2 : ∀ x, i ≠ .addToIndex x) (h3 : ∀ x, i ≠ .setIndexToFontLocation x) :
    t.index = s.index := by
  refine exec_reading State.index h (fun _ => rfl) fun u => ?_
  cases i
  case setIndex a => exact absurd rfl (h1 a)
  case addToIndex x => exact absurd rfl (h2 x)
  case setIndexToFontLocation x => exact absurd rfl (h3 x)
  all_goals rfl

/-- Only CallSub and Return write the stack (R33). -/
theorem exec_stack (h1 : ∀ a, i ≠ .callSub a) (h2 : i ≠ .ret) : t.stack = s.stack := by
  refine exec_reading State.stack h (fun _ => rfl) fun u => ?_
  cases i
  case callSub a => exact absurd rfl (h1 a)
  case ret => exact absurd rfl h2
  all_goals rfl

/-- Only GetDelayTimer and SetDelayTimer write the delay timer (R37). -/
theorem exec_dt (h1 : ∀ x, i ≠ .getDelayTimer x) (h2 : ∀ x, i ≠ .setDelayTimer x) : t.dt = s.dt := by
  refine exec_reading State.dt h (fun _ => rfl) fun u => ?_
  cases i
  case getDelayTimer x => exact absurd rfl (h1 x)
  case setDelayTimer x => exact absurd rfl (h2 x)
  all_goals rfl

/-- Only SetSoundTimer writes the sound timer (R37). -/
theorem exec_st (h1 : ∀ x, i ≠ .setSoundTimer x) : t.st = s.st := by
  refine exec_reading State.st h (fun _ => rfl) fun u => ?_
  cases i
  case setSoundTimer x => exact absurd rfl (h1 x)
  all_goals rfl

/-- Only ClearScreen and Display write the framebuffer (R43). -/
theorem exec_fb (h1 : i ≠ .clearScreen) (h2 : ∀ x y n, i ≠ .display x y n) : t.fb = s.fb := by
  refine exec_reading State.fb h (fun _ => rfl) fun u => ?_
  cases i
  case clearScreen => exact absurd rfl h1
  case display x y n => exact absurd rfl (h2 x y n)
  all_goals rfl

/-- Only WaitForKey writes `wait_x` (R41). -/
theorem exec_waitX (h1 : ∀ x, i ≠ .waitForKey x) : t.waitX = s.waitX := by
  refine exec_reading State.waitX h (fun _ => rfl) fun u => ?_
  cases i
  case waitForKey x => exact absurd rfl (h1 x)
  all_goals rfl

/-- The mode and the record after an instruction (R116, R170): a fault sets both; else the record stands, and only WaitForKey
changes the mode. -/
theorem exec_mode : (∃ r, t = s.raise r) ∨
    (t.fault = s.fault ∧ ((∃ x, i = .waitForKey x) ∧ t.mode = .waitKey ∨ (∀ x, i ≠ .waitForKey x) ∧ t.mode = s.mode)) := by
  refine (exec_cases h).imp_right fun e => ?_
  rw [e]
  cases i
  case waitForKey x => exact ⟨rfl, .inl ⟨⟨x, rfl⟩, rfl⟩⟩
  all_goals exact ⟨rfl, .inr ⟨by simp, rfl⟩⟩

end

/-- Settles O31: memory is untouched (`exec_mem`), so every read is. -/
theorem onlyStoreAndBcdWriteMemory : Obligations.OnlyStoreAndBcdWriteMemory := fun _ _ _ h h1 h2 =>
  State.readByte_congr (exec_mem h h1 h2) (exec_config h)

/-- Settles O50: piece by piece. -/
theorem eachPieceHasItsWriters : Obligations.EachPieceHasItsWriters := fun _ _ _ h =>
  ⟨exec_config h, exec_index h, exec_stack h, exec_dt h, exec_st h,
    fun h1 h2 px py => congrArg (·.pixel px py) (exec_fb h h1 h2), exec_waitX h⟩

/-- Settles O47: an instruction that did not raise left the mode as it was or went to WAIT_KEY (`exec_mode`). -/
theorem faultPerformsNoWrite : Obligations.FaultPerformsNoWrite := by
  intro i s t hs h ht
  rcases exec_mode h with ⟨r, rfl⟩ | ⟨-, ⟨-, hm⟩ | ⟨-, hm⟩⟩
  · exact ⟨r.cause, r.info, rfl⟩
  · rw [ht] at hm
    cases hm
  · exact absurd (hm.symm.trans ht) hs

end Sys2Proof.Machine
end

section
/-! Control transfer (41_control): the stack and the computed jump. -/

namespace Sys2Proof.Machine

/-- Return on an empty stack faults (R122). -/
theorem exec_ret_of_nil {s : State} (h : s.stack = []) :
    exec .ret s = .next (s.raise { cause := .stackUnderflow, info := none }) := by
  rw [exec, execRet, h]
  rfl

/-- Return pops the top entry into `pc` (R122). -/
theorem exec_ret_of_append {s : State} {rest : List Word} {r : Word} (h : s.stack = rest ++ [r]) :
    exec .ret s = .next { s with stack := rest, pc := r } := by
  rw [exec, execRet, h, List.getLast?_concat, List.dropLast_concat]
  rfl

/-- The stack has room exactly if it does not hold STACK_DEPTH entries (R124). -/
theorem stackOverflowFault_eq_none_iff {c : Config} {stack : List Word} :
    stackOverflowFault c stack = none ↔ c.stackDepth ≠ some stack.length := by
  unfold stackOverflowFault
  cases c.stackDepth with
  | none => simp
  | some d => simp [eq_comm]

/-- A full stack is an overflow (R124). -/
theorem stackOverflowFault_eq_some {c : Config} {stack : List Word} (h : c.stackDepth = some stack.length) :
    stackOverflowFault c stack = some { cause := .stackOverflow, info := none } := by
  simp [stackOverflowFault, h]

/-- CallSub with room pushes `pc` and jumps (R124). -/
theorem exec_callSub {s : State} (nnn : Addr) (h : s.config.stackDepth ≠ some s.stack.length) :
    exec (.callSub nnn) s = .next ((s.push s.pc).jumpTo (zextAddr nnn)) := by
  rw [exec, execCallSub, stackOverflowFault_eq_none_iff.2 h, State.raiseOr_none]

/-- Settles O21: the two equations of Return. -/
theorem returnPopsOrUnderflows : Obligations.ReturnPopsOrUnderflows :=
  ⟨isWordOf_encode .ret, fun _ _ _ => exec_ret_of_append, fun _ => exec_ret_of_nil⟩

/-- Settles O20: with room the effect of `exec_callSub`, without it the overflow. -/
theorem callSubPushesOrOverflows : Obligations.CallSubPushesOrOverflows := by
  refine fun nnn s => ⟨isWordOf_encode (.callSub nnn), fun h => ?room, fun h => ?full⟩
  case room => exact ⟨_, exec_callSub nnn h, zextAddr_toNat nnn, rfl, rfl⟩
  case full => rw [FaultsWith, exec, execCallSub, stackOverflowFault_eq_some h]; rfl

/-- Settles O22: CallSub put the return address on top of the caller's stack, and Return takes it off. -/
theorem returnUndoesCallSub : Obligations.ReturnUndoesCallSub := by
  intro nnn s t u hs h hu
  obtain rfl : (s.push s.pc).jumpTo (zextAddr nnn) = t := by simpa using (exec_callSub nnn hs).symm.trans h
  exact exec_ret_of_append hu

/-- The target of JumpWithOffset fits 16 bits, so nothing wraps (R129). -/
theorem State.offsetTarget_toNat (s : State) (nnn : Addr) : (s.offsetTarget nnn).toNat = nnn.toNat + (s.reg 0).toNat := by
  have h1 := nnn.isLt
  have h2 := (s.reg 0).isLt
  have hz : (zextByte (s.reg 0)).toNat = (s.reg 0).toNat := BitVec.toNat_setWidth_of_le (by decide)
  rw [State.offsetTarget, BitVec.toNat_add, zextAddr_toNat, hz, Nat.mod_eq_of_lt (by omega)]

/-- Settles O19: the jump writes `pc` alone, and its target does not wrap. -/
theorem jumpWithOffsetAddsV0 : Obligations.JumpWithOffsetAddsV0 := fun nnn s =>
  ⟨isWordOf_encode (.jumpWithOffset nnn), s.jumpTo (s.offsetTarget nnn), rfl, s.offsetTarget_toNat nnn, rfl⟩

end Sys2Proof.Machine
end

section
/-! Invariants of every step (10_state, 20_memory): memory and font, the stack, the timers and the fault record. -/

namespace Sys2Proof.Machine

/-! ### Memory and the font region (R57, R60, R66) -/

/-- `t` is `s` after a write of at least one byte at `I` that every check has passed (R65, R66). -/
def CheckedWrite (s t : State) : Prop :=
  ∃ bs, 0 < bs.length ∧ writeFault s.config s.indexAddr bs.length = none ∧ t = s.writeBytes s.indexAddr bs

/-- Store and BCDConversion fault, and then write nothing, or do a checked write. -/
theorem State.storeAtIndex_mem (s : State) {bs : List Byte} (hbs : 0 < bs.length) :
    (s.storeAtIndex bs).mem = s.mem ∨ CheckedWrite s (s.storeAtIndex bs) := by
  rcases s.storeAtIndex_cases bs with ⟨r, -, e⟩ | ⟨hc, e⟩
  · exact .inl (e ▸ rfl)
  · exact .inr ⟨bs, hbs, hc, e⟩

/-- What an instruction can do to memory: nothing, or a checked write. -/
theorem exec_mem_cases {i : Instr} {s t : State} (h : exec i s = .next t) : t.mem = s.mem ∨ CheckedWrite s t := by
  cases i
  case store x =>
    injection h with h
    exact h ▸ s.storeAtIndex_mem (by simp)
  case bcdConversion x =>
    injection h with h
    exact h ▸ s.storeAtIndex_mem (by simp [bcdDigits])
  all_goals exact .inl (exec_mem h (by simp) (by simp))

/-- An instruction keeps memory canonical, inside the 4096 bytes (R57, R58). -/
theorem exec_mem_wf {i : Instr} {s t : State} (hw : s.mem.wf s.config.fontData) (h : exec i s = .next t) :
    t.mem.wf t.config.fontData := by
  rw [exec_config h]
  rcases exec_mem_cases h with e | ⟨bs, hbs, hc, rfl⟩
  · rwa [e]
  · exact Memory.writeBytes_wf hw ((writeFault_none_range hc).resolve_left (by omega))

/-- With FONT_WRITE_POLICY = FAULT no instruction changes a byte of the font region (R66). -/
theorem exec_readByte_font {i : Instr} {s t : State} (hp : s.config.fontWrite = .fault) (hw : s.mem.wf s.config.fontData)
    (h : exec i s = .next t) {a : Nat} (h1 : fontBase ≤ a) (h2 : a < fontBase + fontLen) : t.readByte a = s.readByte a := by
  rcases exec_mem_cases h with e | ⟨bs, hbs, hc, rfl⟩
  · exact State.readByte_congr e (exec_config h) a
  · have := writeFault_none_font hp hc
    rw [State.readByte_writeBytes hw.1, dif_neg (by omega)]

/-- The font region reads the same while the font and its bytes stand. -/
theorem FontIntact.congr {s t : State} (hf : FontIntact s) (hc : t.config = s.config)
    (hm : ∀ a, fontBase ≤ a → a < fontBase + fontLen → t.readByte a = s.readByte a) : FontIntact t := fun a h1 h2 => by
  rw [hm a h1 h2, hc, hf a h1 h2]

/-- Settles O34: only an executed instruction could write memory (`step_cases`), and none writes the font region
(`exec_readByte_font`). -/
theorem fontStaysImmutable : Obligations.FontStaysImmutable := by
  intro s t hp hw hf h
  rcases step_cases h with ⟨-, rfl⟩ | ⟨-, k, -, rfl⟩ | ⟨-, i, -, hi⟩ | ⟨-, w, -, rfl⟩
  · exact hf
  · exact hf
  · exact FontIntact.congr (s := s.sample.fetch) hf (exec_config hi) fun a =>
      exec_readByte_font (s := s.sample.fetch) hp hw hi
  · exact hf

/-! ### The invariant (R34, R42, R57, R156) -/

/-- A push that the overflow check lets through stays within STACK_DEPTH (R124). -/
theorem StackBounded.push {s : State} (hs : StackBounded s) (hc : stackOverflowFault s.config s.stack = none) (r : Word) :
    StackBounded (s.push r) := by
  intro d hd
  have hle : s.stack.length ≤ d := hs d hd
  have hne : s.stack.length ≠ d := fun e => stackOverflowFault_eq_none_iff.1 hc (e ▸ hd)
  rw [State.push_stack, List.length_append, List.length_singleton]
  omega

/-- An instruction keeps the stack within STACK_DEPTH. -/
theorem exec_stackBounded {i : Instr} {s t : State} (hs : StackBounded s) (h : exec i s = .next t) : StackBounded t := by
  cases i
  case callSub a =>
    injection h with h
    rcases s.raiseOr_cases (stackOverflowFault s.config s.stack) ((s.push s.pc).jumpTo (zextAddr a)) with ⟨r, -, e⟩ | ⟨hc, e⟩
    · exact (h.symm.trans e) ▸ hs
    · exact (h.symm.trans e) ▸ hs.push hc s.pc
  case ret =>
    rcases List.eq_nil_or_concat s.stack with e | ⟨rest, r, e⟩
    · rw [exec_ret_of_nil e] at h
      injection h with h
      exact h ▸ hs
    · rw [List.concat_eq_append] at e
      rw [exec_ret_of_append e] at h
      injection h with h
      subst h
      intro d hd
      have hle : s.stack.length ≤ d := hs d hd
      rw [e, List.length_append] at hle
      exact Nat.le_of_add_right_le hle
  all_goals
    intro d hd
    rw [exec_stack h (by simp) (by simp)]
    exact hs d (exec_config h ▸ hd)

/-- An instruction puts no delay timer reference in the future. -/
theorem exec_dt_ref {i : Instr} {s t : State} (hs : s.dt.ref ≤ s.input.now) (h : exec i s = .next t) : t.dt.ref ≤ t.input.now := by
  rw [exec_input h]
  cases i
  case getDelayTimer x =>
    injection h with h
    exact h ▸ Timer.afterGet_ref_le hs
  case setDelayTimer x =>
    injection h with h
    exact h ▸ Nat.le_refl _
  all_goals
    rw [exec_dt h (by simp) (by simp)]
    exact hs

/-- An instruction puts no sound timer reference in the future. -/
theorem exec_st_ref {i : Instr} {s t : State} (hs : s.st.ref ≤ s.input.now) (h : exec i s = .next t) : t.st.ref ≤ t.input.now := by
  rw [exec_input h]
  cases i
  case setSoundTimer x =>
    injection h with h
    exact h ▸ Nat.le_refl _
  all_goals
    rw [exec_st h (by simp)]
    exact hs

/-- Drawing the inputs of a step keeps the invariant: time does not run backwards (R50). -/
theorem Inv.sample {s : State} (hi : Inv s) : Inv s.sample where
  memory := hi.memory
  stack := hi.stack
  delayRef := Nat.le_add_right_of_le hi.delayRef
  soundRef := Nat.le_add_right_of_le hi.soundRef
  record := hi.record

/-- A fetch keeps the invariant. -/
theorem Inv.fetch {s : State} (hi : Inv s) : Inv s.fetch :=
  ⟨hi.memory, hi.stack, hi.delayRef, hi.soundRef, hi.record⟩

/-- Taking a fault keeps the invariant: mode and record are set together (R174). -/
theorem Inv.raise {s : State} (hi : Inv s) (r : FaultReason) : Inv (s.raise r) :=
  ⟨hi.memory, hi.stack, hi.delayRef, hi.soundRef, by simp⟩

/-- Another mode that is not FAULTED keeps the invariant. -/
theorem Inv.withMode {s : State} (hi : Inv s) {m : Mode} (hs : s.mode ≠ .faulted) (hm : m ≠ .faulted) : Inv { s with mode := m } :=
  ⟨hi.memory, hi.stack, hi.delayRef, hi.soundRef, hi.record.trans (by simp [hs, hm])⟩

/-- Writing a register keeps the invariant. -/
theorem Inv.setReg {s : State} (hi : Inv s) (x : Reg) (b : Byte) : Inv (s.setReg x b) :=
  ⟨hi.memory, hi.stack, hi.delayRef, hi.soundRef, hi.record⟩

/-- An instruction executed outside FAULTED keeps the invariant. -/
theorem Inv.exec {i : Instr} {s t : State} (hi : Inv s) (hm : s.mode ≠ .faulted) (h : exec i s = .next t) : Inv t where
  memory := exec_mem_wf hi.memory h
  stack := exec_stackBounded hi.stack h
  delayRef := exec_dt_ref hi.delayRef h
  soundRef := exec_st_ref hi.soundRef h
  record := by
    rcases exec_mode h with ⟨r, rfl⟩ | ⟨hf, ⟨-, e⟩ | ⟨-, e⟩⟩
    · simp
    · rw [hf, hi.record, e]
      simp [hm]
    · rw [hf, hi.record, e]

/-- Settles O58: each case of `step_cases` is built of operations that keep the invariant. -/
theorem stepKeepsInv : Obligations.StepKeepsInv := by
  intro s t hi h
  rcases step_cases h with ⟨-, rfl⟩ | ⟨hm, k, -, rfl⟩ | ⟨hm, i, -, he⟩ | ⟨-, w, -, rfl⟩
  · exact hi.sample
  · exact (hi.sample.setReg _ _).withMode (by simp [hm]) (by simp)
  · exact hi.sample.fetch.exec (by simp [hm]) he
  · exact hi.sample.fetch.raise _

end Sys2Proof.Machine
end

section
/-! Index register and memory (43_index_memory): the sum, the glyph address, and the accesses through `I`. -/

namespace Sys2Proof.Machine

/-! ### The index register -/

/-- Settles O25: the glyph address fits 16 bits, so nothing wraps (R145). -/
theorem fontLocationIsFiveBytesAGlyph : Obligations.FontLocationIsFiveBytesAGlyph := by
  refine fun x s => ⟨isWordOf_encode (.setIndexToFontLocation x), _, rfl, ?_, rfl⟩
  have := (s.reg x).isLt
  exact Nat.mod_eq_of_lt (show fontBase + 5 * (s.reg x).toNat < 2 ^ 16 by rw [fontBase]; omega)

/-- No overflow where the sum fits 16 bits or the policy is WRAP (R144). -/
theorem indexOverflowFault_eq_none {c : Config} {sum : Nat} (h : sum ≤ 0xFFFF ∨ c.indexOverflow = .wrap) :
    indexOverflowFault c sum = none := by
  unfold indexOverflowFault
  split
  · rfl
  · rename_i hc
    exact if_neg (Nat.not_lt.2 (h.resolve_right (by simp [hc])))

/-- Else INDEX_OVERFLOW with the sum (R144, R172). -/
theorem indexOverflowFault_eq_some {c : Config} {sum : Nat} (h : 0xFFFF < sum) (hc : c.indexOverflow = .fault) :
    indexOverflowFault c sum = some { cause := .indexOverflow, info := some sum } := by
  simp [indexOverflowFault, hc, h]

/-- The registers after AddToIndex: the flag register is 1 where the sum newly passes 0xFFF, and nothing else changes (R144). -/
theorem State.addIndex_reg (s : State) (x : Reg) (sum : Nat) (r : Reg) :
    (s.addIndex x sum).reg r =
      if s.index.toNat ≤ 0xFFF ∧ 0xFFF < sum % 2 ^ 16 ∧ r = indexFlagReg s.config x then 1 else s.reg r := by
  unfold State.addIndex passesFFF
  by_cases h : s.index.toNat ≤ 0xFFF ∧ 0xFFF < sum % 2 ^ 16
  · rw [if_pos (decide_eq_true h), State.reg_setReg]
    simp only [h.1, h.2, true_and]
    rfl
  · rw [if_neg (by simpa using h), if_neg fun h' => h ⟨h'.1, h'.2.1⟩]
    rfl

/-- Settles O26: the check by its two lemmas, the registers by `State.addIndex_reg`, the frame by `State.addIndex_eq`. -/
theorem addToIndexSumsAndFlags : Obligations.AddToIndexSumsAndFlags := by
  refine fun x s => ⟨isWordOf_encode (.addToIndex x), fun h => ?sums, fun h hc => ?overflows⟩
  case sums =>
    refine ⟨s.addIndex x (s.index.toNat + (s.reg x).toNat), ?_, ?_, fun r => ?_, ?_⟩
    · rw [exec, execAddToIndex, indexOverflowFault_eq_none h, State.raiseOr_none]
    · rw [State.addIndex_index, BitVec.toNat_ofNat]
    · rw [State.addIndex_index, BitVec.toNat_ofNat]
      exact s.addIndex_reg x _ r
    · rw [State.addIndex_index]
      exact s.addIndex_eq x _
  case overflows =>
    rw [FaultsWith, exec, execAddToIndex, indexOverflowFault_eq_some h hc]
    rfl

/-! ### Bytes written and read (R57, R64) -/

/-- Byte `k` of a range write. -/
theorem State.readByte_writeBytes_inside {s : State} (hw : s.mem.wf s.config.fontData) (a k : Nat) (bs : List Byte)
    (hk : k < bs.length) : (s.writeBytes a bs).readByte (a + k) = bs[k] := by
  rw [State.readByte_writeBytes hw.1, dif_pos ⟨by omega, by omega⟩]
  simp only [Nat.add_sub_cancel_left]

/-- A byte outside a range write. -/
theorem State.readByte_writeBytes_outside {s : State} (hw : s.mem.wf s.config.fontData) {a r : Nat} (bs : List Byte)
    (hr : r < a ∨ a + bs.length ≤ r) : (s.writeBytes a bs).readByte r = s.readByte r := by
  rw [State.readByte_writeBytes hw.1, dif_neg (by omega)]

/-! ### Writing at `I`: what Store and BCDConversion share (R65, R66) -/

section
variable {s : State} {bs : List Byte} {n : Nat} (hn : bs.length = n)
include hn

/-- Where the bytes may be written, they are. -/
theorem State.storeAtIndex_of_writable (h : Writable s s.indexAddr n) : s.storeAtIndex bs = s.writeBytes s.indexAddr bs := by
  rw [State.storeAtIndex, writeFault_eq_none s (hn ▸ h), State.raiseOr_none]

/-- Past the memory: ADDRESS_RANGE with the lowest offending address. -/
theorem State.storeAtIndex_of_outOfRange (h0 : 0 < n) (h : memSize < s.indexAddr + n) :
    s.storeAtIndex bs = s.raise { cause := .addressRange, info := some (max s.indexAddr memSize) } := by
  rw [State.storeAtIndex, hn, writeFault_range h0 h, State.raiseOr_some]

/-- On the font region under FONT_WRITE_POLICY = FAULT: FONT_WRITE with the lowest offending address. -/
theorem State.storeAtIndex_of_font (h0 : 0 < n) (h : s.indexAddr + n ≤ memSize) (hc : s.config.fontWrite = .fault)
    (h1 : fontBase < s.indexAddr + n) (h2 : s.indexAddr < fontBase + fontLen) :
    s.storeAtIndex bs = s.raise { cause := .fontWrite, info := some (max s.indexAddr fontBase) } := by
  rw [State.storeAtIndex, hn, writeFault, rangeFault_eq_none (.inr h), Option.none_or, fontFault_eq_some hc h1 h2 h0,
    State.raiseOr_some]

end

/-- Settles O27: three bytes written at `I` or one of the two faults; each digit is below 256. -/
theorem bcdWritesThreeDigits : Obligations.BcdWritesThreeDigits := by
  refine fun x s => ⟨isWordOf_encode (.bcdConversion x), fun hw h => ?writes, fun h => ?range, fun h hc h1 h2 => ?font⟩
  case writes =>
    have hv := (s.reg x).isLt
    have hb : ∀ k (hk : k < 3), (s.writeBytes s.indexAddr (bcdDigits (s.reg x))).readByte (s.indexAddr + k) =
        (bcdDigits (s.reg x))[k]'hk := fun k hk => State.readByte_writeBytes_inside hw _ k (bcdDigits (s.reg x)) hk
    refine ⟨_, congrArg Host.Outcome.next (State.storeAtIndex_of_writable rfl h), ?_, ?_, ?_, fun a ha => ?_, rfl⟩
    · exact (congrArg BitVec.toNat (hb 0 (by decide))).trans (Nat.mod_eq_of_lt (by omega))
    · exact (congrArg BitVec.toNat (hb 1 (by decide))).trans (Nat.mod_eq_of_lt (by omega))
    · exact (congrArg BitVec.toNat (hb 2 (by decide))).trans (Nat.mod_eq_of_lt (by omega))
    · exact s.readByte_writeBytes_outside hw _ (ha.imp_right fun h => h)
  case range => exact congrArg Host.Outcome.next (State.storeAtIndex_of_outOfRange (n := 3) rfl (by decide) (Nat.lt_succ_of_le h))
  case font =>
    exact congrArg Host.Outcome.next
      (State.storeAtIndex_of_font (n := 3) rfl (by decide) h hc (Nat.lt_succ_of_le h1) (Nat.lt_succ_of_le h2))

/-- Store, where it may write (R147). -/
theorem exec_store {s : State} {x : Reg} (h : Writable s s.indexAddr (x.toNat + 1)) :
    exec (.store x) s = .next (s.writeBytes s.indexAddr (s.regsUpTo x)) :=
  congrArg Host.Outcome.next (State.storeAtIndex_of_writable (s.regsUpTo_length x) h)

/-- The bytes Store has written are the registers (R147). -/
theorem State.readByte_store {s : State} (hw : s.mem.wf s.config.fontData) {x r : Reg} (hr : r.toNat ≤ x.toNat) :
    (s.writeBytes s.indexAddr (s.regsUpTo x)).readByte (s.indexAddr + r.toNat) = s.reg r := by
  have hk : r.toNat < (s.regsUpTo x).length := by rw [State.regsUpTo_length]; omega
  rw [s.readByte_writeBytes_inside hw _ _ _ hk, State.regsUpTo_getElem]

/-- Settles O28: `x + 1` bytes written at `I` or one of the two faults. -/
theorem storeWritesTheRegisters : Obligations.StoreWritesTheRegisters := by
  refine fun x s => ⟨isWordOf_encode (.store x), fun hw h => ?writes, fun h => ?range, fun h hc h1 h2 => ?font⟩
  case writes =>
    refine ⟨_, exec_store h, fun r => State.readByte_store hw, fun a ha => s.readByte_writeBytes_outside hw _ ?_, rfl⟩
    rw [State.regsUpTo_length]
    omega
  case range =>
    exact congrArg Host.Outcome.next
      (State.storeAtIndex_of_outOfRange (s.regsUpTo_length x) (Nat.succ_pos _) (Nat.lt_succ_of_le h))
  case font =>
    exact congrArg Host.Outcome.next
      (State.storeAtIndex_of_font (s.regsUpTo_length x) (Nat.succ_pos _) h hc (Nat.lt_succ_of_le h1) (Nat.lt_succ_of_le h2))

/-- Load inside the memory (R148). -/
theorem exec_load {s : State} {x : Reg} (h : s.indexAddr + x.toNat < 4096) :
    exec (.load x) s = .next (s.setRegs (s.readBytes s.indexAddr (x.toNat + 1))) := by
  rw [exec, execLoad, regCount, rangeFault_eq_none (.inr h), State.raiseOr_none]

/-- The registers Load has written are the bytes at `I` (R148). -/
theorem State.reg_load {s : State} {x r : Reg} (hr : r.toNat ≤ x.toNat) :
    (s.setRegs (s.readBytes s.indexAddr (x.toNat + 1))).reg r = s.readByte (s.indexAddr + r.toNat) := by
  rw [State.reg_setRegs, dif_pos (by rw [State.readBytes_length]; omega), State.readBytes_getElem]

/-- Load leaves the registers above `V[x]` (R148). -/
theorem State.reg_load_above {s : State} {x r : Reg} (hr : x.toNat < r.toNat) :
    (s.setRegs (s.readBytes s.indexAddr (x.toNat + 1))).reg r = s.reg r := by
  rw [State.reg_setRegs, dif_neg (by rw [State.readBytes_length]; omega)]

/-- Settles O29: the registers written and kept by their two lemmas; else the range fault. -/
theorem loadReadsTheRegisters : Obligations.LoadReadsTheRegisters := by
  refine fun x s => ⟨isWordOf_encode (.load x), fun h => ?reads, fun h => ?range⟩
  case reads => exact ⟨_, exec_load h, fun r => State.reg_load, fun r => State.reg_load_above, rfl⟩
  case range =>
    rw [FaultsWith, exec, execLoad, regCount, rangeFault_eq_some (Nat.succ_pos _) (Nat.lt_succ_of_le h)]
    rfl

/-! ### Stores seen by later reads -/

/-- Settles O30: Load reads the bytes at the same `I`, which are the registers that Store wrote. -/
theorem storeThenLoadRestores : Obligations.StoreThenLoadRestores := by
  intro x s t u w hw hs ht hc hm hi hl r hr
  obtain rfl : s.writeBytes s.indexAddr (s.regsUpTo x) = t := by simpa using (exec_store hs).symm.trans ht
  have hI : u.indexAddr = s.indexAddr := congrArg BitVec.toNat hi
  have hin : u.indexAddr + x.toNat < 4096 := hI ▸ hs.1
  obtain rfl : u.setRegs (u.readBytes u.indexAddr (x.toNat + 1)) = w := by simpa using (exec_load hin).symm.trans hl
  rw [State.reg_load hr, State.readByte_congr hm hc, hI, State.readByte_store hw hr]

/-- Settles O33: the fetch reads two bytes big-endian (`fetchIsBigEndianModulo4096`), which are the first two that Store wrote. -/
theorem nextFetchSeesTheStore : Obligations.NextFetchSeesTheStore := by
  intro x s t hw hs hx hpc ht
  obtain rfl : s.writeBytes s.indexAddr (s.regsUpTo x) = t := by simpa using (exec_store hs).symm.trans ht
  have h0 : (s.writeBytes s.indexAddr (s.regsUpTo x)).readByte (s.indexAddr + 0) = s.reg 0 :=
    State.readByte_store hw (r := 0) (Nat.zero_le _)
  have h1 : (s.writeBytes s.indexAddr (s.regsUpTo x)).readByte (s.indexAddr + 1) = s.reg 1 :=
    State.readByte_store hw (r := 1) hx
  have hpc1 : (s.pc.toNat + 1) % 4096 = s.indexAddr + 1 := by
    have := hs.1
    omega
  rw [State.nextWord, (fetchIsBigEndianModulo4096 _).1, State.writeBytes_pc, hpc, hpc1, h1, ← h0, Nat.add_zero]

end Sys2Proof.Machine
end

section
/-! Registers (42_register_alu): the law of Sub and AddRegReg, and which registers an instruction may write. -/

namespace Sys2Proof.Machine

/-- The complement of a byte modulo 256 (R142). -/
def complement (b : Byte) : Byte := BitVec.ofNat 8 ((256 - b.toNat) % 256)

theorem complement_toNat (b : Byte) : (complement b).toNat = (256 - b.toNat) % 256 := by
  rw [complement, BitVec.toNat_ofNat, Nat.mod_mod]

/-- Adding the complement is subtracting (R142). -/
theorem add_complement (a b : Byte) : a + complement b = a - b := by
  apply BitVec.eq_of_toNat_eq
  rw [BitVec.toNat_add, complement_toNat, byte_sub_toNat]
  have := b.isLt
  omega

/-- The carry of adding the complement is the absence of a borrow, but for the subtrahend 0 (R142). -/
theorem carryOut_complement (a b : Byte) :
    carryOut a (complement b) = (decide (b ≠ 0) && noBorrow a b) := by
  have ha := a.isLt
  have hb := b.isLt
  have hz : b ≠ 0 ↔ b.toNat ≠ 0 := not_congr BitVec.toNat_inj.symm
  simp only [carryOut, noBorrow, complement_toNat, hz, ← Bool.decide_and]
  exact decide_eq_decide.2 (by omega)

/-- No borrow of 0 (R142). -/
theorem noBorrow_zero (a : Byte) : noBorrow a 0 = true := decide_eq_true (Nat.zero_le _)

/-- Settles O16: the results agree by `add_complement`, the flags by `carryOut_complement`. -/
theorem subIsAddOfTheComplement : Obligations.SubIsAddOfTheComplement := by
  intro x y s t u hxy hx hy ht hu
  change exec (.addRegReg x y) (s.setReg y (complement (s.reg y))) = .next u at hu
  injection ht with ht
  injection hu with hu
  subst ht hu
  rw [State.reg_setReg_ne _ _ hxy, State.reg_setReg_self, add_complement, carryOut_complement, regF_eq]
  refine ⟨?result, fun h0 => ?flag, fun h0 => ?flagOfZero⟩
  case result => rw [State.reg_setRegFlag_result _ _ _ hx, State.reg_setRegFlag_result _ _ _ hx]
  case flag =>
    rw [State.reg_setRegFlag_flag, State.reg_setRegFlag_flag, decide_eq_true h0, Bool.true_and]
  case flagOfZero =>
    rw [State.reg_setRegFlag_flag, State.reg_setRegFlag_flag, h0, noBorrow_zero]
    exact ⟨rfl, rfl⟩

/-- A register that is not the shift's flag destination, in the words of SHIFT_FLAG_DEST (R138). -/
theorem ne_shiftFlagReg {c : Config} {y r : Reg} (h : match c.shiftFlagDest with | .vy => r ≠ y | .vf => r ≠ 15) :
    r ≠ shiftFlagReg c y := by
  unfold shiftFlagReg
  cases hc : c.shiftFlagDest <;> rw [hc] at h <;> exact h

/-- A register that is not the index flag's destination, in the words of INDEX_FLAG_DEST (R144). -/
theorem ne_indexFlagReg {c : Config} {x r : Reg} (h : match c.indexFlagDest with | .vx => r ≠ x | .vf => r ≠ 15) :
    r ≠ indexFlagReg c x := by
  unfold indexFlagReg
  cases hc : c.indexFlagDest <;> rw [hc] at h <;> exact h

/-- Settles O17: for an instruction that writes registers, the rule of its write; for another, its footprint holds none. -/
theorem registersWrittenAreTheNamedOnes : Obligations.RegistersWrittenAreTheNamedOnes := by
  intro i s t r h hr
  cases i
  case set | add | random | loadRegReg | or | and | xor | getDelayTimer =>
    injection h with h
    exact h ▸ State.reg_setReg_ne _ _ hr
  case addRegReg | sub | subNeg =>
    injection h with h
    exact h ▸ State.reg_setRegFlag_other _ _ _ hr.1 hr.2
  case shiftRight | shiftLeft =>
    injection h with h
    exact h ▸ State.reg_setRegFlag_other _ _ _ hr.1 (ne_shiftFlagReg hr.2)
  case addToIndex x =>
    injection h with h
    refine h ▸ State.raiseOr_congr s (State.reg · r) _ (fun _ => rfl) ?_
    rw [State.addIndex_reg, if_neg fun h' => ne_indexFlagReg hr h'.2.2]
  case load x =>
    injection h with h
    exact h ▸ State.raiseOr_congr s (State.reg · r) _ (fun _ => rfl) (State.reg_load_above hr)
  case display =>
    injection h with h
    exact h ▸ State.raiseOr_congr s (State.reg · r) _ (fun _ => rfl) (State.reg_setReg_ne _ _ hr)
  all_goals exact exec_reading (State.reg · r) h (fun _ => rfl) fun _ => rfl

end Sys2Proof.Machine
end

section
/-! Keypad (46_keypad), and what an instruction does not depend on (20_memory R67, 40_cycle R118). -/

namespace Sys2Proof.Machine

/-! ### Key skips and the key wait -/

/-- No key fault for a key, or where the policy is NOT_PRESSED (R169). -/
theorem keyRangeFault_eq_none {c : Config} {k : Byte} (h : k.toNat < 16 ∨ c.keyRange = .notPressed) : keyRangeFault c k = none := by
  unfold keyRangeFault
  split
  · rfl
  · rename_i hc
    exact if_neg (Nat.not_lt.2 (Nat.le_of_lt_succ (h.resolve_right (by simp [hc]))))

/-- Else KEY_RANGE with the index (R169, R172). -/
theorem keyRangeFault_eq_some {c : Config} {k : Byte} (h : 15 < k.toNat) (hc : c.keyRange = .fault) :
    keyRangeFault c k = some { cause := .keyRange, info := some k.toNat } := by
  simp [keyRangeFault, hc, h]

/-- A key is held where the drawn set says so (R167). -/
theorem State.keyHeld_of_lt (s : State) {k : Byte} (h : k.toNat < 16) : s.keyHeld k = s.input.keysHeld[k.toNat] := dif_pos h

/-- No key above 15 is held (R169). -/
theorem State.keyHeld_of_gt (s : State) {k : Byte} (h : 15 < k.toNat) : s.keyHeld k = false := dif_neg (Nat.not_lt.2 h)

/-- The key skips where no fault is raised (R167, R168). -/
theorem exec_keySkips {s : State} {x : Reg} (h : (s.reg x).toNat < 16 ∨ s.config.keyRange = .notPressed) :
    exec (.skipIfPressed x) s = .next (s.skipIf (s.keyHeld (s.reg x))) ∧
    exec (.skipIfNotPressed x) s = .next (s.skipIf (!s.keyHeld (s.reg x))) := by
  rw [exec, exec, execSkipIfPressed, execSkipIfNotPressed, keyRangeFault_eq_none h]
  exact ⟨rfl, rfl⟩

/-- Settles O43: below 16 and under NOT_PRESSED the skip on `State.keyHeld`, else the fault. -/
theorem keySkipsReadTheHeldSet : Obligations.KeySkipsReadTheHeldSet := by
  refine fun x s => ⟨⟨isWordOf_encode (.skipIfPressed x), isWordOf_encode (.skipIfNotPressed x)⟩, fun h => ?key,
    fun h hc => ?fault, fun h hc => ?notPressed⟩
  case key =>
    rw [(exec_keySkips (.inl h)).1, (exec_keySkips (.inl h)).2, s.keyHeld_of_lt h]
    cases s.input.keysHeld[(s.reg x).toNat] <;> exact ⟨rfl, rfl⟩
  case fault =>
    rw [FaultsWith, FaultsWith, exec, exec, execSkipIfPressed, execSkipIfNotPressed, keyRangeFault_eq_some h hc]
    exact ⟨rfl, rfl⟩
  case notPressed =>
    rw [(exec_keySkips (.inr hc)).1, (exec_keySkips (.inr hc)).2, s.keyHeld_of_gt h]
    exact ⟨rfl, rfl⟩

/-- Settles O44: the meaning is one update of mode and target, which reads no input. -/
theorem waitForKeyBlocks : Obligations.WaitForKeyBlocks := fun x s =>
  ⟨isWordOf_encode (.waitForKey x), { s with mode := .waitKey, waitX := x }, rfl, rfl, rfl, rfl⟩

/-! ### What an instruction does not depend on -/

/-- `s` with another memory and other inputs. -/
def State.withEnv (s : State) (m : Memory) (inp : Inputs) : State := { s with mem := m, input := inp }

/-- Two readings of the inputs agree on the one input that the rule of `i` names (R118). -/
def SameInput (i : Instr) (a b : Inputs) : Prop :=
  match i with
  | .random _ _ => a.randByte = b.randByte
  | .getDelayTimer _ | .setDelayTimer _ | .setSoundTimer _ => a.now = b.now
  | .skipIfPressed _ | .skipIfNotPressed _ => a.keysHeld = b.keysHeld
  | _ => True

/-- An update `g` that commutes with the faults and with the effect commutes with the checked effect. -/
theorem State.raiseOr_map (g : State → State) {s s' t t' : State} (c : Option FaultReason)
    (hr : ∀ r, s'.raise r = g (s.raise r)) (ht : t' = g t) : s'.raiseOr c t' = g (s.raiseOr c t) := by
  cases c with
  | none => exact ht
  | some r => exact hr r

section
variable (s : State) (m : Memory) (inp : Inputs)

theorem State.skipIf_withEnv (c : Bool) : (s.withEnv m inp).skipIf c = (s.skipIf c).withEnv m inp := by cases c <;> rfl

theorem State.addIndex_withEnv (x : Reg) (n : Nat) : (s.withEnv m inp).addIndex x n = (s.addIndex x n).withEnv m inp := by
  show (if passesFFF s.index.toNat (n % 2 ^ 16) = true then _ else _) =
    State.withEnv (if passesFFF s.index.toNat (n % 2 ^ 16) = true then _ else _) m inp
  split <;> rfl

theorem State.keyHeld_withEnv (h : inp.keysHeld = s.input.keysHeld) (k : Byte) : (s.withEnv m inp).keyHeld k = s.keyHeld k := by
  simp only [State.keyHeld, State.withEnv, h]

end

/-- An instruction that the memory table does not list (R67) commutes with another memory and with other inputs that agree on its
own input. -/
theorem exec_withEnv {i : Instr} {s : State} {inp : Inputs} (m : Memory) (hi : SameInput i inp s.input)
    (h1 : ∀ x y n, i ≠ .display x y n) (h2 : ∀ x, i ≠ .bcdConversion x) (h3 : ∀ x, i ≠ .store x) (h4 : ∀ x, i ≠ .load x) :
    ∃ t, exec i s = .next t ∧ exec i (s.withEnv m inp) = .next (t.withEnv m inp) := by
  have checked : ∀ {t t' : State} (c : Option FaultReason), t' = t.withEnv m inp →
      Host.Outcome.next ((s.withEnv m inp).raiseOr c t') = (.next ((s.raiseOr c t).withEnv m inp) : Result) := fun c ht =>
    congrArg Host.Outcome.next (State.raiseOr_map (·.withEnv m inp) c (fun _ => rfl) ht)
  cases i
  case display x y n => exact absurd rfl (h1 x y n)
  case bcdConversion x => exact absurd rfl (h2 x)
  case store x => exact absurd rfl (h3 x)
  case load x => exact absurd rfl (h4 x)
  case ret =>
    rcases List.eq_nil_or_concat' s.stack with e | ⟨rest, r, e⟩
    · exact ⟨_, exec_ret_of_nil e, exec_ret_of_nil e⟩
    · exact ⟨_, exec_ret_of_append e, exec_ret_of_append e⟩
  case callSub => exact ⟨_, rfl, checked _ rfl⟩
  case skipEq | skipNEq | skipRegEq | skipRegNEq =>
    exact ⟨_, rfl, congrArg Host.Outcome.next (s.skipIf_withEnv m inp _)⟩
  case skipIfPressed | skipIfNotPressed =>
    refine ⟨_, rfl, checked _ ?_⟩
    rw [State.keyHeld_withEnv s m inp hi]
    exact s.skipIf_withEnv m inp _
  case addToIndex x => exact ⟨_, rfl, checked _ (s.addIndex_withEnv m inp x _)⟩
  case random => exact ⟨_, rfl, by rw [exec, execRandom, State.withEnv, hi]; rfl⟩
  case getDelayTimer => exact ⟨_, rfl, by rw [exec, execGetDelayTimer, State.withEnv, hi]; rfl⟩
  case setDelayTimer => exact ⟨_, rfl, by rw [exec, execSetDelayTimer, State.withEnv, hi]; rfl⟩
  case setSoundTimer => exact ⟨_, rfl, by rw [exec, execSetSoundTimer, State.withEnv, hi]; rfl⟩
  all_goals exact ⟨_, rfl, rfl⟩

/-- Settles O32: `exec_withEnv` with the inputs as they are. -/
theorem otherInstructionsIgnoreMemory : Obligations.OtherInstructionsIgnoreMemory := by
  intro i s m hi
  have hs : SameInput i s.input s.input := by cases i <;> trivial
  obtain ⟨t, ht, hm⟩ := exec_withEnv m hs (by rintro _ _ _ rfl; exact hi) (by rintro _ rfl; exact hi) (by rintro _ rfl; exact hi)
    (by rintro _ rfl; exact hi)
  exact ⟨t, ht, hm.trans (by rw [← exec_input ht]; rfl)⟩

/-- Settles O51: an instruction that reads memory reads no input; for another, `exec_withEnv` with the memory as it is. -/
theorem eachInstructionUsesItsOneInput : Obligations.EachInstructionUsesItsOneInput := by
  intro i s inp hi
  have checked : ∀ {t t' : State} (c : Option FaultReason), t' = { t with input := inp } →
      Host.Outcome.next ({ s with input := inp }.raiseOr c t') = (.next { s.raiseOr c t with input := inp } : Result) := fun c ht =>
    congrArg Host.Outcome.next (State.raiseOr_map (fun s => { s with input := inp }) c (fun _ => rfl) ht)
  have unlisted : (∀ x y n, i ≠ .display x y n) → (∀ x, i ≠ .bcdConversion x) → (∀ x, i ≠ .store x) → (∀ x, i ≠ .load x) →
      ∃ t, exec i s = .next t ∧ exec i { s with input := inp } = .next { t with input := inp } := fun h1 h2 h3 h4 => by
    obtain ⟨t, ht, hm⟩ := exec_withEnv s.mem hi h1 h2 h3 h4
    exact ⟨t, ht, hm.trans (by rw [← exec_mem ht h3 h2]; rfl)⟩
  cases i
  case display | bcdConversion | store | load => exact ⟨_, rfl, checked _ rfl⟩
  all_goals exact unlisted (by simp) (by simp) (by simp) (by simp)

end Sys2Proof.Machine
end

section
/-! The step (40_cycle, 60_exceptions): what it runs, where it leaves `pc`, and how it moves the mode. -/

namespace Sys2Proof.Machine

/-! ### What a step request runs -/

/-- A step in mode RUN whose word decodes executes the instruction on the fetched state (R111). -/
theorem step_known {s : State} {i : Instr} (hm : s.mode = .run) (hd : decode s.config.strictDecode s.nextWord = .known i) :
    step s = exec i s.sample.fetch := by
  rw [step_run s hm, State.sample_nextWord, hd, executeWith]

/-- A step in mode RUN whose word is Unknown takes the fault (R120). -/
theorem step_unknown {s : State} {w : Word} (hm : s.mode = .run) (hd : decode s.config.strictDecode s.nextWord = .unknown w) :
    step s = .next (s.sample.fetch.raise { cause := .unknownOpcode, info := some w.toNat }) := by
  rw [step_run s hm, State.sample_nextWord, hd, executeWith, execUnknown]

/-- Settles O5: the fetched state is the one named. -/
theorem stepRunsTheDecodedInstruction : Obligations.StepRunsTheDecodedInstruction := fun _ _ => step_known

/-- Settles O46: an Unknown value carries its word (`eq_of_decode_unknown`), and the step takes the fault. -/
theorem unknownWordFaults : Obligations.UnknownWordFaults := by
  intro s w hm hd
  obtain rfl := eq_of_decode_unknown hd
  exact ⟨rfl, step_unknown hm hd⟩

/-- A key press completes the wait (R171). -/
theorem step_of_keyPress {s : State} {k : Key} (hm : s.mode = .waitKey) (hk : s.nextDraw.keyPress = some k) :
    step s = .next { s.sample.setReg s.waitX (k.setWidth 8) with mode := .run } := by
  rw [step_waitKey s hm, State.waitStep, State.sample_keyPress, hk]
  rfl

/-- Without a key press a wait goes on (R114). -/
theorem step_of_noKeyPress {s : State} (hm : s.mode = .waitKey) (hk : s.nextDraw.keyPress = none) : step s = .next s.sample := by
  rw [step_waitKey s hm, State.waitStep, State.sample_keyPress, hk]

/-- Settles O45: with a press one register write and the mode, without one only inputs. -/
theorem keyPressCompletesTheWait : Obligations.KeyPressCompletesTheWait := by
  refine fun s hm => ⟨fun k hk => ?press, fun hk => ⟨_, step_of_noKeyPress hm hk, s.sample_onlyInputs⟩⟩
  case press =>
    have hv : (s.sample.setReg s.waitX (k.setWidth 8)).reg s.waitX = k.setWidth 8 := State.reg_setReg_self _ _ _
    refine ⟨_, step_of_keyPress hm hk, rfl, ?_, fun r => State.reg_setReg_ne s.sample _, rfl⟩
    exact (congrArg BitVec.toNat hv).trans (BitVec.toNat_setWidth_of_le (by decide))

/-! ### Parameters, time, and requests without a step -/

/-- Settles O52: no case of `step_cases` changes parameters, and each has the inputs of `State.sample`. -/
theorem stepKeepsParametersAndTimeOrder : Obligations.StepKeepsParametersAndTimeOrder := by
  intro s t h
  have e : t.config = s.config ∧ t.input = s.sample.input := by
    rcases step_cases h with ⟨-, rfl⟩ | ⟨-, k, -, rfl⟩ | ⟨-, i, -, hi⟩ | ⟨-, w, -, rfl⟩
    · exact ⟨rfl, rfl⟩
    · exact ⟨rfl, rfl⟩
    · exact ⟨(exec_config hi).trans rfl, (exec_input hi).trans rfl⟩
    · exact ⟨rfl, rfl⟩
  rw [e.2]
  exact ⟨e.1, Nat.le_add_right _ _, rfl⟩

/-- A step request in FAULTED or IDLE draws inputs (R115, R175). -/
theorem step_without_step {s : State} (hm : s.mode = .faulted ∨ s.mode = .idle) : step s = .next s.sample :=
  hm.elim (step_faulted s) (step_idle s)

/-- Only inputs moved, twice over. -/
theorem OnlyInputsMoved.trans {s t u : State} (h1 : OnlyInputsMoved s t) (h2 : OnlyInputsMoved t u) : OnlyInputsMoved s u := by
  rw [OnlyInputsMoved] at *
  rw [h1] at h2
  exact h2

/-- The first of `k + 1` step requests is a step. -/
theorem runSteps_succ (k : Nat) {s t : State} (h : step s = .next t) : runSteps (k + 1) s = runSteps k t := by
  have hs : core.step s = .next t := h
  simp only [runSteps, Host.Core.run, hs]
  rfl

/-- Any number of step requests in FAULTED or IDLE draws inputs. -/
theorem runSteps_without_step (k : Nat) {s t : State} (hm : s.mode = .faulted ∨ s.mode = .idle) (h : runSteps k s = .next t) :
    OnlyInputsMoved s t := by
  induction k generalizing s with
  | zero =>
    injection h with h
    exact h ▸ rfl
  | succ k ih =>
    rw [runSteps_succ k (step_without_step hm)] at h
    exact s.sample_onlyInputs.trans (ih hm h)

/-- Settles O48: by induction on the requests, and a load asks for mode IDLE. -/
theorem faultedAndIdleHaveNoStep : Obligations.FaultedAndIdleHaveNoStep :=
  ⟨fun k _ _ => runSteps_without_step k, fun s rom hm => by rw [State.loadRom, hm]⟩

/-! ### The mode (R40) -/

/-- The mode after an executed instruction is RUN, WAIT_KEY or FAULTED, and WAIT_KEY for WaitForKey alone. -/
theorem exec_mode_of_run {i : Instr} {s t : State} (hm : s.mode = .run) (h : exec i s = .next t) :
    t.mode ≠ .idle ∧ (t.mode = .waitKey ↔ ∃ x, i = .waitForKey x) := by
  by_cases hx : ∃ x, i = .waitForKey x
  · obtain ⟨x, rfl⟩ := hx
    injection h with h
    subst h
    simp
  · rcases exec_mode h with ⟨r, rfl⟩ | ⟨-, ⟨hw, -⟩ | ⟨-, e⟩⟩
    · simp [hx]
    · exact absurd hw hx
    · simp [e, hm, hx]

/-- Settles O49: the mode in each case of `step_cases`. -/
theorem modeChangesOnlyAsNamed : Obligations.ModeChangesOnlyAsNamed := by
  intro s t h
  rcases step_cases h with ⟨hm, rfl⟩ | ⟨hm, k, hk, rfl⟩ | ⟨hm, i, hd, hi⟩ | ⟨hm, w, hd, rfl⟩
  · rcases hm with hm | hm | ⟨hm, hk⟩
    · simp [hm]
    · simp [hm]
    · simp [hm, hk]
  · simp [hm, hk]
  · have := exec_mode_of_run (by simp [hm]) hi
    simp [hm, hd, this.1, this.2]
  · simp [hm, hd]

/-! ### The program counter (R28) -/

/-- `pc` after the fetch and a skip (R113). -/
theorem State.skip_after_fetch (s : State) (c : Bool) :
    (s.sample.fetch.skipIf c).pc.toNat = (s.pc.toNat + if c = true then 4 else 2) % 2 ^ 16 := by
  simp only [State.skipIf_pc_toNat, State.fetch_pc, State.sample_pc, BitVec.toNat_add, BitVec.reduceToNat]
  split <;> omega

/-- A checked effect that does not end in FAULTED took place. -/
theorem State.raiseOr_of_not_faulted {s t : State} {c : Option FaultReason} (h : (s.raiseOr c t).mode ≠ .faulted) :
    s.raiseOr c t = t := by
  rcases s.raiseOr_cases c t with ⟨r, -, e⟩ | ⟨-, e⟩
  · exact absurd (e ▸ rfl) h
  · exact e

/-- Settles O7: a fault keeps the fetch's advance (`faultPerformsNoWrite`); else the jumps and skips move `pc` as their rules say, and no
other footprint holds it. -/
theorem programCounterAfterEachStep : Obligations.ProgramCounterAfterEachStep := by
  intro s t i hm hd h
  rw [step_known hm hd] at h
  have hpc : s.sample.fetch.pc.toNat = (s.pc.toNat + 2) % 2 ^ 16 := by
    simp only [State.fetch_pc, State.sample_pc, BitVec.toNat_add, BitVec.reduceToNat]
  refine ⟨fun ht => ?_, fun ht => ?_⟩
  · obtain ⟨cause, info, rfl⟩ := faultPerformsNoWrite i _ t (by simp [hm]) h ht
    exact hpc
  cases i
  case jump nnn =>
    injection h with h
    exact h ▸ zextAddr_toNat nnn
  case callSub nnn =>
    injection h with h
    subst h
    rw [State.raiseOr_of_not_faulted ht]
    exact zextAddr_toNat nnn
  case jumpWithOffset nnn =>
    injection h with h
    exact h ▸ s.sample.fetch.offsetTarget_toNat nnn
  case ret =>
    rcases List.eq_nil_or_concat' s.sample.fetch.stack with e | ⟨rest, r, e⟩
    · rw [exec_ret_of_nil e] at h
      injection h with h
      exact absurd (h ▸ rfl) ht
    · rw [exec_ret_of_append e] at h
      injection h with h
      have hr : s.stack.getLastD 0 = r := by
        rw [show s.stack = rest ++ [r] from e, List.getLastD_concat]
      exact h ▸ congrArg BitVec.toNat hr.symm
  case skipEq | skipRegEq =>
    injection h with h
    rw [← h, State.skip_after_fetch]
    simp only [beq_iff_eq]
    rfl
  case skipNEq | skipRegNEq =>
    injection h with h
    rw [← h, State.skip_after_fetch]
    simp only [bne_iff_ne]
    rfl
  case skipIfPressed =>
    injection h with h
    subst h
    rw [State.raiseOr_of_not_faulted ht, State.skip_after_fetch]
    rfl
  case skipIfNotPressed x =>
    injection h with h
    subst h
    rw [State.raiseOr_of_not_faulted ht, State.skip_after_fetch]
    show (s.pc.toNat + if (!s.sample.keyHeld (s.reg x)) = true then 4 else 2) % 2 ^ 16 =
      (s.pc.toNat + if s.sample.keyHeld (s.reg x) = true then 2 else 4) % 2 ^ 16
    cases s.sample.keyHeld (s.reg x) <;> rfl
  all_goals exact (congrArg BitVec.toNat (exec_reading State.pc h (fun _ => rfl) fun _ => rfl)).trans hpc

end Sys2Proof.Machine
end

section
/-! Timers (45_timers): the countdown over reads and over steps, and the sound output. -/

namespace Sys2Proof.Machine

/-- Reads in order change no later read (R160): each moves the reference no further than its own time. -/
theorem Timer.valueAt_foldl_afterGet {tick t : Nat} (htick : 0 < tick) (reads : List Nat) :
    ∀ T : Timer, (T.ref :: (reads ++ [t])).Pairwise (· ≤ ·) →
      (reads.foldl (fun T r => T.afterGet tick r) T).valueAt tick t = T.valueAt tick t := by
  induction reads with
  | nil => intro T _; rfl
  | cons r reads ih =>
    intro T h
    obtain ⟨hT, hr⟩ := List.pairwise_cons.1 h
    obtain ⟨hlater, hrest⟩ := List.pairwise_cons.1 hr
    have hTr : T.ref ≤ r := hT r (by simp)
    have hrt : r ≤ t := hlater t (by simp)
    have href : (T.afterGet tick r).ref ≤ r := Timer.afterGet_ref_le hTr
    rw [List.foldl_cons, ih _ (List.pairwise_cons.2 ⟨fun u hu => href.trans (hlater u hu), hrest⟩),
      Timer.valueAt_afterGet htick hTr hrt]

/-- Settles O40: the reads change nothing, and a read of the timer as set is the closed form (`Timer.valueAt_toNat`). -/
theorem timerReadIsTheClosedForm : Obligations.TimerReadIsTheClosedForm := by
  intro tick t0 t v reads htick h
  rw [Timer.valueAt_foldl_afterGet htick reads _ h, Timer.valueAt_toNat, Timer.setAt_val, Timer.setAt_ref]

/-- An instruction that does not set the delay timer changes no read from its own time on. -/
theorem exec_dt_valueAt {i : Instr} {s t : State} {u : Nat} (htick : 0 < s.config.tick) (href : s.dt.ref ≤ s.input.now)
    (h : exec i s = .next t) (hi : ∀ x, i ≠ .setDelayTimer x) (hu : s.input.now ≤ u) :
    t.dt.valueAt s.config.tick u = s.dt.valueAt s.config.tick u := by
  by_cases hg : ∃ x, i = .getDelayTimer x
  · obtain ⟨x, rfl⟩ := hg
    injection h with h
    exact h ▸ Timer.valueAt_afterGet htick href hu
  · rw [exec_dt h (fun x e => hg ⟨x, e⟩) hi]

/-- A step that executes no SetDelayTimer changes no read of the delay timer from its own time on (R161). -/
theorem step_dt_valueAt {s t : State} {u : Nat} (htick : 0 < s.config.tick) (href : s.dt.ref ≤ s.input.now) (h : step s = .next t)
    (hi : ∀ x, s.mode = .run → decode s.config.strictDecode s.nextWord ≠ .known (.setDelayTimer x)) (hu : t.input.now ≤ u) :
    t.dt.valueAt s.config.tick u = s.dt.valueAt s.config.tick u := by
  rcases step_cases h with ⟨-, rfl⟩ | ⟨-, k, -, rfl⟩ | ⟨hm, i, hd, he⟩ | ⟨-, w, -, rfl⟩
  · rfl
  · rfl
  · rw [exec_input he] at hu
    exact exec_dt_valueAt (s := s.sample.fetch) htick (Nat.le_add_right_of_le href) he (fun x e => hi x hm (e ▸ hd)) hu
  · rfl

/-- Settles O41: no read changes (`step_dt_valueAt`), and GetDelayTimer reads the timer as it was. -/
theorem delayTimerCountsAcrossSteps : Obligations.DelayTimerCountsAcrossSteps := by
  intro s t v t0 htick href hv h hi
  obtain ⟨-, hnow, -⟩ := stepKeepsParametersAndTimeOrder s t h
  refine ⟨fun u hu => ?_, fun x hm hd => ?_⟩
  · rw [step_dt_valueAt htick href h hi hu]
    exact hv u (hnow.trans hu)
  · rw [step_known hm hd] at h
    injection h with h
    subst h
    exact (congrArg BitVec.toNat (State.reg_setReg_self _ x _)).trans (hv _ hnow)

/-- The sound output reads the sound timer and TICK alone (R162). -/
theorem State.soundActive_congr {s t : State} (hs : t.st = s.st) (hc : t.config = s.config) (u : Nat) :
    t.soundActive u = s.soundActive u := by
  rw [State.soundActive, State.soundActive, hs, hc]

/-- The sound output is on while the value less the whole ticks is above 0 (R162). -/
theorem State.soundActive_iff (s : State) (u : Nat) :
    s.soundActive u = true ↔ 0 < s.st.val.toNat - (u - s.st.ref) / s.config.tick := by
  rw [State.soundActive, decide_eq_true_eq, Timer.valueAt_toNat]

/-- Settles O42: a set stores value and time; no other case of `step_cases` touches the sound timer; at reset its value is 0. -/
theorem soundOutputFollowsTheLastSet : Obligations.SoundOutputFollowsTheLastSet := by
  refine ⟨fun x s t u h => ?set, fun s t h hi u => ?kept, fun c t0 u => ?reset⟩
  case set =>
    injection h with h
    subst h
    exact State.soundActive_iff _ u
  case kept =>
    rcases step_cases h with ⟨-, rfl⟩ | ⟨-, k, -, rfl⟩ | ⟨hm, i, hd, he⟩ | ⟨-, w, -, rfl⟩
    · rfl
    · rfl
    · exact State.soundActive_congr (s := s.sample.fetch) (exec_st he fun x e => hi x hm (e ▸ hd)) (exec_config he) u
    · rfl
  case reset =>
    rw [← Bool.not_eq_true, State.soundActive_iff, show (State.resetWith c t0).st.val.toNat = 0 from rfl, Nat.zero_sub]
    exact Nat.lt_irrefl 0

end Sys2Proof.Machine
end

section
/-! Reset, ROM load and what a run can reach (10_state R54, 20_memory R73 to R76, 70_reset_and_hazards). -/

namespace Sys2Proof.Machine

/-! ### Reset -/

/-- After reset every address reads as its reset contents (R54). -/
theorem State.readByte_resetWith (c : Config) (t a : Nat) : (State.resetWith c t).readByte a = Memory.initial c.fontData a := rfl

/-- The reset contents of the font region are FONT_DATA (R60). -/
theorem Memory.initial_font (font : Vector Byte 80) {k : Nat} (h : k < 80) : Memory.initial font (0x050 + k) = font[k] := by
  have hf : fontBase ≤ 0x050 + k ∧ 0x050 + k < fontBase + fontLen := by
    rw [fontBase, fontLen]
    omega
  rw [Memory.initial, dif_pos hf]
  simp only [fontBase, Nat.add_sub_cancel_left]

/-- The reset contents of every other address are zero (R54). -/
theorem Memory.initial_outside (font : Vector Byte 80) {a : Nat} (h : a < 0x050 ∨ 0x09F < a) : Memory.initial font a = 0 := by
  refine dif_neg ?_
  rw [fontBase, fontLen]
  omega

/-- Settles O53: the registers and pixels are replicated, memory reads as its reset contents, the rest stands in the definition. -/
theorem resetValues : Obligations.ResetValues := fun c _ =>
  ⟨fun _ => Vector.getElem_replicate _, rfl, rfl, rfl, rfl, rfl, rfl, fun _ => Memory.initial_font c.fontData,
    fun _ => Memory.initial_outside c.fontData, Framebuffer.pixel_clear, rfl, rfl, rfl⟩

/-- Settles O57: at reset memory lists nothing, the stack is empty, both references are the time of reset. -/
theorem resetMeetsInv : Obligations.ResetMeetsInv := fun c t =>
  ⟨Memory.nil_wf, fun _ _ => Nat.zero_le _, Nat.le_refl t, Nat.le_refl t, by simp [State.resetWith]⟩

/-! ### ROM load -/

/-- A ROM that fits is loaded in IDLE (R73, R74). -/
theorem State.loadRom_of_fits {s : State} {rom : List Byte} (hm : s.mode = .idle) (h : rom.length ≤ 3584) :
    s.loadRom rom = .ok (s.afterLoad rom) := by
  rw [State.loadRom, hm]
  exact if_pos (decide_eq_true h)

/-- Settles O55: in IDLE the length is looked at, in another mode it is not. -/
theorem romLoadRefusals : Obligations.RomLoadRefusals := by
  refine ⟨fun s rom hm h => ?tooLong, fun s rom hm => ?refused⟩
  case tooLong =>
    rw [State.loadRom, hm]
    exact if_neg fun hf => absurd (of_decide_eq_true hf) (Nat.not_le.2 h)
  case refused =>
    rw [State.loadRom]
    cases h : s.mode with
    | idle => exact absurd h hm
    | run | waitKey | faulted => rfl

/-- An accepted load was in IDLE, of a ROM that fits, and gives the loaded state (R73 to R76). -/
theorem State.loadRom_ok {s t : State} {rom : List Byte} (h : s.loadRom rom = .ok t) :
    s.mode = .idle ∧ rom.length ≤ 3584 ∧ t = s.afterLoad rom := by
  obtain ⟨tooLong, refused⟩ := romLoadRefusals
  have hm : s.mode = .idle := by
    by_contra hm
    simp [refused s rom hm] at h
  have hl : rom.length ≤ 3584 := by
    by_contra hl
    simp [tooLong s rom hm (by omega)] at h
  rw [State.loadRom_of_fits hm hl] at h
  injection h with h
  exact ⟨hm, hl, h.symm⟩

/-- Settles O54: the load is one range write at 0x200, beside `pc` and mode. -/
theorem romLoadCopiesVerbatim : Obligations.RomLoadCopiesVerbatim := fun _ rom hm h hw =>
  ⟨_, State.loadRom_of_fits hm h, fun k hk => State.readByte_writeBytes_inside hw progBase k rom hk,
    fun _ ha => State.readByte_writeBytes_outside hw rom ha, rfl, rfl, rfl⟩

/-- Settles O56: the fetch at 0x200 reads the first two bytes of the range write, big-endian (`fetchIsBigEndianModulo4096`). -/
theorem romRunsFromItsFirstWord : Obligations.RomRunsFromItsFirstWord := by
  intro c t b0 b1 rest s h
  obtain ⟨-, -, rfl⟩ := State.loadRom_ok h
  have hb : ∀ k (hk : k < (b0 :: b1 :: rest).length),
      ((State.resetWith c t).afterLoad (b0 :: b1 :: rest)).readByte (0x200 + k) = (b0 :: b1 :: rest)[k] := fun k hk =>
    State.readByte_writeBytes_inside (s := State.resetWith c t) Memory.nil_wf progBase k _ hk
  refine ⟨rfl, rfl, (fetchIsBigEndianModulo4096 _).1.trans ?_⟩
  exact congrArg₂ (fun a b : Byte => 256 * a.toNat + b.toNat) (hb 0 (by simp)) (hb 1 (by simp))

/-! ### What a run can reach -/

/-- A load keeps the invariant: the ROM lies inside the memory (R74). -/
theorem Inv.afterLoad {s : State} (hi : Inv s) {rom : List Byte} (hm : s.mode = .idle) (h : rom.length ≤ 3584) :
    Inv (s.afterLoad rom) where
  memory := Memory.writeBytes_wf hi.memory (by rw [progBase, memSize]; omega)
  stack := hi.stack
  delayRef := hi.delayRef
  soundRef := hi.soundRef
  record := hi.record.trans (by simp [hm])

/-- A load leaves the font region: the program region lies above it (R63). -/
theorem FontIntact.afterLoad {s : State} (hf : FontIntact s) (hw : s.mem.wf s.config.fontData) (rom : List Byte) :
    FontIntact (s.afterLoad rom) :=
  hf.congr rfl fun _ _ h2 => State.readByte_writeBytes_outside hw rom (.inl (Nat.lt_of_lt_of_le h2 (by decide)))

/-- Settles O59: by induction on the run, with O58 and O34 for its steps. -/
theorem reachableStatesAreSound : Obligations.ReachableStatesAreSound := by
  intro s hs
  induction hs with
  | reset c t hc => exact ⟨resetMeetsInv c t, hc, fun _ _ _ _ => rfl⟩
  | @load rom s t _ h ih =>
    obtain ⟨hi, hc, hf⟩ := ih
    obtain ⟨hm, hl, rfl⟩ := State.loadRom_ok h
    exact ⟨hi.afterLoad hm hl, hc, fun hp => (hf hp).afterLoad hi.memory rom⟩
  | @step s t _ h ih =>
    obtain ⟨hi, hc, hf⟩ := ih
    obtain ⟨e, -, -⟩ := stepKeepsParametersAndTimeOrder s t h
    rw [e]
    exact ⟨stepKeepsInv s t hi h, hc, fun hp => fontStaysImmutable s t hp hi.memory (hf hp) h⟩
  | @restart s _ ih =>
    obtain ⟨-, hc, -⟩ := ih
    obtain ⟨h1, h2, h3, h4, h5⟩ := resetMeetsInv s.config s.input.now
    exact ⟨⟨h1, h2, h3, h4, h5⟩, hc, fun _ _ _ _ => rfl⟩
  | @schedule ds s _ ih =>
    obtain ⟨⟨h1, h2, h3, h4, h5⟩, hc, hf⟩ := ih
    exact ⟨⟨h1, h2, h3, h4, h5⟩, hc, hf⟩

/-! ### Words and text -/

/-- Settles O1: the twenty words, evaluated. -/
theorem writtenWordsDecode : Obligations.WrittenWordsDecode := by
  unfold Obligations.WrittenWordsDecode
  decide

/-- Settles O60: two bytes are one line, by the recursion of the disassembler. -/
theorem disassemblyLineCount : Obligations.DisassemblyLineCount := by
  intro strict bytes
  induction bytes using disassemble.induct with
  | case1 => rfl
  | case2 b => simp [disassemble]
  | case3 hi lo rest ih =>
    rw [disassemble, List.length_cons, ih, List.length_cons, List.length_cons]
    split <;> split <;> omega

end Sys2Proof.Machine
end

section
/-! Display (44_display): a sprite drawn once and twice. -/

namespace Sys2Proof.Machine

/-- The sprite's bit on a pixel, from the bytes read, is `SpriteCovers` (R150, R151). -/
theorem spriteBit_eq_spriteCovers (s : State) (x y : Reg) (n : Nibble) (px py : Nat) :
    (decide (s.spriteX x ≤ px ∧ px < s.spriteX x + 8 ∧ s.spriteY y ≤ py ∧
        py < s.spriteY y + (s.readBytes s.indexAddr n.toNat).length) &&
      ((s.readBytes s.indexAddr n.toNat).getD (py - s.spriteY y) 0).getLsbD (7 - (px - s.spriteX x))) =
    SpriteCovers s x y n px py := by
  rw [State.readBytes_length]
  by_cases hy : s.spriteY y ≤ py ∧ py < s.spriteY y + n.toNat
  · have hk : py - s.spriteY y < (s.readBytes s.indexAddr n.toNat).length := by
      rw [State.readBytes_length]
      omega
    rw [List.getD_eq_getElem _ _ hk, State.readBytes_getElem]
    simp only [Bool.decide_and, ← Bool.and_assoc]
    rfl
  · have hno : ¬(s.spriteX x ≤ px ∧ px < s.spriteX x + 8 ∧ s.spriteY y ≤ py ∧ py < s.spriteY y + n.toNat) := fun h => hy h.2.2
    rw [decide_eq_false hno, Bool.false_and]
    symm
    rw [Bool.eq_false_iff]
    intro h
    simp only [SpriteCovers, Bool.and_eq_true, decide_eq_true_eq] at h
    obtain ⟨⟨⟨-, h1⟩, h2⟩, -⟩ := h
    exact hy ⟨h1, h2⟩

/-- A sprite inverts the pixels it covers and no other (R150 to R152). -/
theorem State.drawSprite_pixel (s : State) (x y : Reg) (n : Nibble) (px : Fin 64) (py : Fin 32) :
    (s.drawSprite x y (s.readBytes s.indexAddr n.toNat)).fb.pixel px py =
      (s.fb.pixel px py ^^ SpriteCovers s x y n px.val py.val) := by
  rw [State.drawSprite, (Canvas.drawRows_spec _ _ _ _).1, spriteBit_eq_spriteCovers]

/-- It collides exactly if a pixel it covers was set (R153). -/
theorem State.drawSprite_collision (s : State) (x y : Reg) (n : Nibble) :
    (s.drawSprite x y (s.readBytes s.indexAddr n.toNat)).collision = true ↔
      ∃ (px : Fin 64) (py : Fin 32), SpriteCovers s x y n px.val py.val = true ∧ s.fb.pixel px py = true := by
  rw [State.drawSprite, (Canvas.drawRows_spec _ _ _ _).2]
  simp only [← spriteBit_eq_spriteCovers, Bool.and_eq_true, decide_eq_true_eq, Bool.false_eq_true, false_or]
  simp only [and_comm]

/-- The state after a sprite that lies inside the memory, or has no row. -/
def State.afterDisplay (s : State) (x y : Reg) (n : Nibble) : State :=
  { s with fb := (s.drawSprite x y (s.readBytes s.indexAddr n.toNat)).fb }.setReg 15
    (flagByte (s.drawSprite x y (s.readBytes s.indexAddr n.toNat)).collision)

/-- Display inside the memory (R150). -/
theorem exec_display {s : State} {x y : Reg} {n : Nibble} (h : n = 0 ∨ s.indexAddr + n.toNat ≤ 4096) :
    exec (.display x y n) s = .next (s.afterDisplay x y n) := by
  rw [exec, execDisplay, rangeFault_eq_none (h.imp_left fun h0 => by rw [h0]; rfl)]
  rfl

/-- VF after a sprite is the collision (R153). -/
theorem State.afterDisplay_reg (s : State) (x y : Reg) (n : Nibble) :
    (s.afterDisplay x y n).reg 15 = flagByte (s.drawSprite x y (s.readBytes s.indexAddr n.toNat)).collision :=
  State.reg_setReg_self _ _ _

/-- Settles O36: the pixels by `State.drawSprite_pixel`, VF by `State.drawSprite_collision`; else the range fault. -/
theorem displayInvertsUnderTheSprite : Obligations.DisplayInvertsUnderTheSprite := by
  refine fun x y n s => ⟨isWordOf_encode (.display x y n), fun h => ?draws, fun h0 h => ?range⟩
  case draws =>
    refine ⟨_, exec_display h, fun px py => ?_, ?_, ?_, fun r => State.reg_setReg_ne { s with fb := _ } _, rfl⟩
    · refine (s.drawSprite_pixel x y n px py).trans ?_
      cases SpriteCovers s x y n px.val py.val <;> simp
    · rw [State.afterDisplay_reg]
      exact flagByte_bit _
    · rw [State.afterDisplay_reg, flagByte_eq_one, State.drawSprite_collision]
  case range =>
    have hn : 0 < n.toNat := Nat.pos_of_ne_zero fun e => h0 (BitVec.eq_of_toNat_eq e)
    rw [FaultsWith, exec, execDisplay, rangeFault_eq_some hn (show 4096 < s.indexAddr + n.toNat by omega)]
    rfl

/-- The sprite covers the same pixels where index, bytes and place are the same. -/
theorem spriteCovers_congr {s u : State} {x y : Reg} (n : Nibble) (hi : u.index = s.index) (hb : ∀ a, u.readByte a = s.readByte a)
    (hx : (u.reg x).toNat % 64 = (s.reg x).toNat % 64) (hy : (u.reg y).toNat % 32 = (s.reg y).toNat % 32) (px py : Nat) :
    SpriteCovers u x y n px py = SpriteCovers s x y n px py := by
  simp only [SpriteCovers, State.indexAddr, hi, hb, hx, hy]

/-- Settles O37: the second draw inverts the same pixels again, and finds set exactly those that the first found clear. -/
theorem drawingTwiceRestores : Obligations.DrawingTwiceRestores := by
  intro x y n s t u w h ht hfb hi hb hx hy hw
  have hcov : ∀ px py, SpriteCovers u x y n px py = SpriteCovers s x y n px py := spriteCovers_congr n hi hb hx hy
  obtain rfl : s.afterDisplay x y n = t := by simpa using (exec_display h).symm.trans ht
  have hu : n = 0 ∨ u.indexAddr + n.toNat ≤ 4096 := by rwa [State.indexAddr, hi]
  obtain rfl : u.afterDisplay x y n = w := by simpa using (exec_display hu).symm.trans hw
  have hpix : ∀ px py, u.fb.pixel px py = (s.fb.pixel px py ^^ SpriteCovers s x y n px.val py.val) := fun px py => by
    rw [hfb]
    exact s.drawSprite_pixel x y n px py
  refine ⟨Framebuffer.ext_pixel fun px py => ?restored, ?bit, ?collides⟩
  case restored =>
    refine (u.drawSprite_pixel x y n px py).trans ?_
    rw [hpix, hcov, Bool.xor_assoc, Bool.xor_self, Bool.xor_false]
  case bit =>
    rw [State.afterDisplay_reg]
    exact flagByte_bit _
  case collides =>
    rw [State.afterDisplay_reg, flagByte_eq_one, State.drawSprite_collision]
    refine exists_congr fun px => exists_congr fun py => ?_
    rw [hcov, hpix]
    refine and_congr_right fun hc => ?_
    rw [hc, Bool.xor_true, Bool.not_eq_true']

end Sys2Proof.Machine
end
